-- ==== Sys2Proof/Word.lean ====
section
/-! DEFINITION. The word types of the CHIP-8 interpreter core (10_state.md R9, R12, R16, R20; 20_memory.md R27). -/

namespace Sys2Proof

/-- A general register's value, or a byte of memory (R9, R20). -/
abbrev Byte := BitVec 8

/-- A 16-bit value: an opcode (R42), the instruction pointer (R12), a call stack entry (R16), FAULT_INFO (R19). -/
abbrev Half := BitVec 16

/-- A valid memory address, 0x000..0xFFF (R27). -/
abbrev Addr := BitVec 12

/-- A register index, 0..15; every index is valid (R9, R49). -/
abbrev RegIdx := Fin 16

end Sys2Proof
end

