-- ==== Sys2Proof/Syntax.lean ====
section
/-! DEFINITION. The instruction set `CE4`: the four rows of spec/opcode_table.json (30_encoding.md R44). -/

namespace Sys2Proof

/-- The four instructions. The operand types are exactly the ranges the spec gives the operands, so every term is an
instruction: all 4096 addresses (R46) and all 16 x 16 register pairs (R47) are valid. -/
inductive Instr where
  /-- `HALT`, opcode 0x0000 (R64). -/
  | halt
  /-- `RETURN`, opcode 0x00EE (R66). -/
  | ret
  /-- `CALL nnn`, opcode 0x2nnn, `nnn` an absolute address (R68). -/
  | call (nnn : Addr)
  /-- `ADD Vx, Vy`, opcode 0x8xy4, `x` destination and first source, `y` second source (R69). -/
  | add (x y : RegIdx)
  deriving DecidableEq, Repr

end Sys2Proof
end

