-- ==== Sys2Proof/WellFormed.lean ====
section
/-! DEFINITION. What a well-formed instruction is: as syntax, and as a 16-bit opcode by the match and mask columns of
the spec's table (30_encoding.md R44), written apart from the decoder so that the two can be compared. -/

namespace Sys2Proof

/-- One row of the operation table: an opcode selects the row when `op AND mask = pattern` (R44). -/
structure OpcodeRow where
  mnemonic : String
  pattern  : Half
  mask     : Half
  deriving DecidableEq, Repr

/-- The table of R44, in the source's order. -/
def opcodeTable : List OpcodeRow :=
  [⟨"HALT", 0x0000, 0xFFFF⟩, ⟨"RETURN", 0x00EE, 0xFFFF⟩, ⟨"CALL", 0x2000, 0xF000⟩, ⟨"ADD", 0x8004, 0xF00F⟩]

/-- "An opcode `op` selects a row when `op AND mask = match`" (R44). -/
def OpcodeRow.selects (r : OpcodeRow) (op : Half) : Bool := op &&& r.mask == r.pattern

/-- An opcode that is one of the four instructions (R51, R52). -/
def opcodeWellFormed (op : Half) : Bool := opcodeTable.any (·.selects op)

/-- The operand ranges of R46, R47 and R49. The types of `Instr` carry them, so the check accepts every term:
there is no ill-formed instruction term on this hardware, only ill-formed opcodes. -/
def Instr.wellFormed : Instr → Bool
  | .halt => true
  | .ret => true
  | .call nnn => decide (nnn.toNat ≤ 0x0FFF)
  | .add x y => decide (x.val ≤ 15) && decide (y.val ≤ 15)

end Sys2Proof
end

