-- ==== Sys2Proof/Decode.lean ====
section
/-! DEFINITION. The instruction decoder (30_encoding.md, 40_instruction_cycle.md R58, R59) and, after it, the encoder. -/

namespace Sys2Proof

/-! ### Byte order -/

/-- Big-endian assembly of an opcode: `(high << 8) | low` (20_memory.md R31). -/
def joinBytes (hi lo : Byte) : Half := (hi.setWidth 16 <<< 8) ||| lo.setWidth 16

/-- The byte stored at the lower address (R31, R42). -/
def highByte (op : Half) : Byte := op.extractLsb' 8 8

/-- The byte stored at the higher address (R31, R42). -/
def lowByte (op : Half) : Byte := op.extractLsb' 0 8

/-! ### Fields -/

/-- The fields of an opcode (R43): four nibbles and their 12-bit overlay. -/
structure Fields where
  c   : BitVec 4
  x   : BitVec 4
  y   : BitVec 4
  d   : BitVec 4
  nnn : Addr
  deriving DecidableEq, Repr

/-- Decode's first half (R58): `c = op[15:12]`, `x = op[11:8]`, `y = op[7:4]`, `d = op[3:0]`, `nnn = op[11:0]`. -/
def fieldsOf (op : Half) : Fields :=
  { c := op.extractLsb' 12 4, x := op.extractLsb' 8 4, y := op.extractLsb' 4 4, d := op.extractLsb' 0 4,
    nnn := op.extractLsb' 0 12 }

/-- A register operand is the 4-bit index itself (R49). -/
def regOperand (n : BitVec 4) : RegIdx := ⟨n.toNat, n.isLt⟩

/-! ### Decoding -/

/-- Why bytes are not an instruction. -/
inductive DecodeError where
  /-- Fewer than the two bytes every instruction has (R42). The fetch never hands the decoder so few. -/
  | truncated
  /-- The opcode matches none of the four patterns (R52, R60). -/
  | unimplementedOpcode (op : Half)
  deriving DecidableEq, Repr

/-- Dispatch's choice (R55, R59), "exact-tuple matches before wildcard classes" (R50), the refusal last. -/
def decodeOpcode (op : Half) : Except DecodeError Instr :=
  if op = 0x0000#16 then .ok .halt
  else if op = 0x00EE#16 then .ok .ret
  else if (fieldsOf op).c = 0x2#4 then .ok (.call (fieldsOf op).nnn)
  else if (fieldsOf op).c = 0x8#4 ∧ (fieldsOf op).d = 0x4#4 then
    .ok (.add (regOperand (fieldsOf op).x) (regOperand (fieldsOf op).y))
  else .error (.unimplementedOpcode op)

/-- The decoder on bytes in memory order: two bytes, high byte first (R31, R42); answers the bytes left over. -/
def decode : List Byte → Except DecodeError (Instr × List Byte)
  | hi :: lo :: rest =>
    match decodeOpcode (joinBytes hi lo) with
    | .ok i => .ok (i, rest)
    | .error e => .error e
  | _ => .error .truncated

/-- The opcode that spec/opcode_table.json numbers `w` over `nbits` bits: bit 0 is the opcode's bit 0, and every bit
above `nbits` is 0 (log 19). -/
def tableWord (nbits w : Nat) : Half := BitVec.ofNat 16 (w % 2 ^ nbits)

/-- The instruction the decoder reads from a table word, laid out as the hardware stores it (R31). -/
def decodeTableWord (nbits w : Nat) : Option Instr :=
  match decode [highByte (tableWord nbits w), lowByte (tableWord nbits w)] with
  | .ok (i, _) => some i
  | .error _ => none

/-! ### Encoding -/

/-- The opcode of an instruction, from the formulas of 30_encoding.md R45, R47 and R54. -/
def encodeOpcode : Instr → Half
  | .halt => 0x0000#16
  | .ret => 0x00EE#16
  | .call nnn => 0x2000#16 ||| nnn.setWidth 16
  | .add x y => 0x8004#16 ||| (BitVec.ofNat 16 x.val <<< 8) ||| (BitVec.ofNat 16 y.val <<< 4)

/-- The two bytes of an instruction in memory order (R31, R42). -/
def encode (i : Instr) : List Byte := [highByte (encodeOpcode i), lowByte (encodeOpcode i)]

end Sys2Proof
end

