-- ==== Sys2Proof/Config.lean ====
section
/-! DEFINITION. The parameters of the hardware (00_scope.md R7) and its one free value, the launch image of memory. -/

namespace Sys2Proof.Config

/-- `MEM_SIZE`: bytes of memory (R7, R20). -/
@[simp, reducible] def memSize : Nat := 4096

/-- `IP_STEP`: how far the instruction pointer advances per fetch (R7, R57). -/
@[simp, reducible] def ipStep : Half := 2

/-- `STACK_DEPTH`: call stack capacity (R7, R16). -/
@[simp, reducible] def stackDepth : Nat := 16

/-- `IP_RESET`: the value of IP after reset (R7, R87; the spec's decision D5, log 9). -/
@[simp, reducible] def ipReset : Half := 0x0000

/-- The highest IP a fetch accepts: `IP + 1` must be below 4096 (R30, R56). -/
@[simp, reducible] def lastFetch : Nat := 0x0FFE

/-- `MEM_IMAGE` (R7, R88; decision D3, OPEN): what a byte holds that the host has not written.
A FREE VALUE: it has no body, so no proof can know any byte of it (log 1). It depends on the address alone, since
reads are idempotent and memory is constant during a run (R34, R37). -/
opaque memImage : Addr → Byte

end Sys2Proof.Config
end

