-- ==== Sys2Proof/Machine/State.lean ====
section
/-! DEFINITION. The state of the core (10_state.md), its reset value (70_reset_and_hazards.md R87), the ways a step can
stop, and the plain updates of each state element. -/

namespace Sys2Proof.Machine

/-- The run status (R19; decision D4). -/
inductive Status where
  /-- Reset and not yet run. -/
  | idle
  /-- The run loop is stepping. -/
  | running
  /-- The last run ended on HALT. -/
  | halted
  /-- The last run ended on a fault. -/
  | faulted
  deriving DecidableEq, Repr

/-- Which fault ended the last run (R19, R72). -/
inductive FaultKind where
  /-- No fault. -/
  | none
  /-- CALL with a full stack (R73). -/
  | stackOverflow
  /-- RETURN with an empty stack (R74). -/
  | stackUnderflow
  /-- An opcode that matches no pattern (R75). -/
  | unimplementedOpcode
  /-- A fetch at an IP above 0x0FFE (R76). -/
  | outOfBounds
  deriving DecidableEq, Repr

/-- The bytes the host has written, as (address, byte) pairs in canonical form (`Memory.wf`). An address that is not
listed has no written value: it reads as the free value `Config.memImage` (R88, log 1). -/
abbrev Memory := List Host.Cell

/-- All the state of the machine (10_state.md section 1). -/
structure State where
  /-- The register file V[0..15]; V[15] is the carry flag VF (R9, R11). -/
  v         : Vector Byte 16
  /-- The instruction pointer IP (R12). -/
  ip        : Half
  /-- The call stack STACK[0..15] (R16). -/
  stack     : Vector Half 16
  /-- The stack pointer SP, 0..16, the next free slot (R17, D2). -/
  sp        : Fin 17
  /-- The memory MEM (R20). -/
  mem       : Memory
  /-- STATUS (R19). -/
  status    : Status
  /-- FAULT_KIND (R19). -/
  faultKind : FaultKind
  /-- FAULT_INFO (R19). -/
  faultInfo : Half
  deriving DecidableEq, Repr

/-- Stops that leave no state. There are none: each of the four faults of R72 leaves a state the spec describes
(R73 to R76, R78, R81), so raising one is a NEXT state with STATUS = FAULTED (log 3). Nobody raises this type, which is
safe: the type says that no step of this machine ends in an outcome `fault`. -/
inductive Fault where
  deriving DecidableEq, Repr

/-- Why the model gives no meaning. -/
inductive Refusal where
  /-- Raised by an arm of `exec` whose instruction has no meaning yet. Safe: the model stops. No arm is left so. -/
  | notModelled (mnemonic : String)
  /-- Raised by `hostPort` when the host issues a command while STATUS = RUNNING: the port "accepts nothing and returns
  nothing" (R40) and the spec says nothing of a run in which the host acted (R41, U12). Safe: the model stops. No
  instruction and no step raises it. -/
  | hostPortClosed
  deriving DecidableEq, Repr

namespace State

/-- The machine right after reset (R87), no byte of memory written by the host (log 2). -/
def reset : State where
  v         := Vector.replicate 16 0x00
  ip        := Config.ipReset
  stack     := Vector.replicate 16 0x0000
  sp        := 0
  mem       := []
  status    := .idle
  faultKind := .none
  faultInfo := 0x0000

/-! ### Updates: one state element each -/

/-- `V[i] <- b` (R8). -/
def setV (s : State) (i : RegIdx) (b : Byte) : State := { s with v := s.v.set i.val b i.isLt }

/-- `IP <- a` (R8). -/
def setIp (s : State) (a : Half) : State := { s with ip := a }

/-- `STACK[k] <- a` (R8). -/
def setStack (s : State) (k : Fin 16) (a : Half) : State := { s with stack := s.stack.set k.val a k.isLt }

/-- `SP <- n` (R8). -/
def setSp (s : State) (n : Fin 17) : State := { s with sp := n }

/-- The memory array replaced whole. -/
def setMem (s : State) (m : Memory) : State := { s with mem := m }

/-- `STATUS <- x` (R8). -/
def setStatus (s : State) (x : Status) : State := { s with status := x }

/-- `FAULT_KIND <- k` and `FAULT_INFO <- info` (R8). -/
def setFault (s : State) (k : FaultKind) (info : Half) : State := { s with faultKind := k, faultInfo := info }

end State

end Sys2Proof.Machine
end

