-- ==== Sys2Proof/Machine/Ops.lean ====
section
/-! DEFINITION. The operations the step, the meanings and the host port share: memory and the address decoder
(20_memory.md), fetch and advance (40_instruction_cycle.md), raising a fault (60_exceptions.md R78), the stack controller
(42_subroutine.md R65) and reset (70_reset_and_hazards.md R87). -/

namespace Sys2Proof.Machine

/-! ### Memory -/

/-- The canonical form: addresses strictly rising and inside 0x000..0xFFF (R27). An unlisted address has no written
value, which no entry equals, so equal contents are equal lists (log 1). -/
def Memory.wf (m : Memory) : Bool :=
  decide (m.Pairwise fun c d => c.1 < d.1) && m.all fun c => decide (c.1 < Config.memSize)

/-- The byte the host wrote at `a`, if it wrote one. -/
def Memory.written : Memory → Addr → Option Byte
  | [], _ => none
  | (k, b) :: rest, a => if k = a.toNat then some b else Memory.written rest a

/-- `MEM[a]`: the byte the host wrote, and where it wrote none the free value MEM_IMAGE (R20, R88; log 1). -/
def Memory.read (m : Memory) (a : Addr) : Byte := (m.written a).getD (Config.memImage a)

/-- `MemWrite(a, 1, b)`, which only the host port calls (R8, R28); keeps the canonical form. -/
def Memory.write : Memory → Addr → Byte → Memory
  | [], a, b => [(a.toNat, b)]
  | (k, c) :: rest, a, b =>
    if a.toNat < k then (a.toNat, b) :: (k, c) :: rest
    else if a.toNat = k then (k, b) :: rest
    else (k, c) :: Memory.write rest a b

/-! ### The address decoder -/

/-- The address decoder (R29): the cell an address selects, or none (out of range). It never truncates an
out-of-range address into range. The address is a natural number, so `IP + 1` is formed without wrap (R30). -/
def selectCell (a : Nat) : Option Addr := if a < Config.memSize then some (BitVec.ofNat 12 a) else none

/-! ### Fetch and advance -/

/-- The fetch unit (R56): the opcode at IP, high byte first; `none` where R30 raises OutOfBounds. No state changes. -/
def fetch (s : State) : Option Half :=
  match selectCell s.ip.toNat, selectCell (s.ip.toNat + 1) with
  | some hi, some lo => some (joinBytes (s.mem.read hi) (s.mem.read lo))
  | _, _ => none

/-- After a successful fetch and before decode, `IP <- IP + 2` (R57). -/
def advance (s : State) : State := s.setIp (s.ip + Config.ipStep)

/-! ### Faults -/

/-- `raise k(info)` (R8, R78): STATUS, FAULT_KIND and FAULT_INFO are written and nothing else. There is no handler to
go to and no return from a fault (R79). -/
def raise (k : FaultKind) (info : Half) (s : State) : State := (s.setStatus .faulted).setFault k info

/-- A failed fetch raises `OutOfBounds(IP)`; IP is not advanced (R30, R76). -/
def raiseOutOfBounds (s : State) : State := raise .outOfBounds s.ip s

/-- The dispatch fallback raises `UnimplementedOpcode(op)` (R60, R75). -/
def raiseUnimplemented (op : Half) (s : State) : State := raise .unimplementedOpcode op s

/-! ### The stack controller -/

/-- `Push(v)` (R65): the state after the push, or, as an error, the state `raise StackOverflow(0x0000)` leaves. -/
def push (a : Half) (s : State) : Except State State :=
  if h : s.sp.val < Config.stackDepth then
    .ok ((s.setStack ⟨s.sp.val, h⟩ a).setSp ⟨s.sp.val + 1, Nat.succ_lt_succ h⟩)
  else .error (raise .stackOverflow 0x0000 s)

/-- `Pop()` (R65): the entry and the state after the pop, or, as an error, the state `raise StackUnderflow(0x0000)`
leaves. The entry is read, not cleared. -/
def pop (s : State) : Except State (Half × State) :=
  match s.sp with
  | ⟨0, _⟩ => .error (raise .stackUnderflow 0x0000 s)
  | ⟨k + 1, h⟩ => .ok (s.stack[k]'(Nat.lt_of_succ_lt_succ h), s.setSp ⟨k, Nat.lt_of_succ_lt h⟩)

/-! ### Reset and run -/

/-- What reset does to a machine (R87): every element to its reset value, except that MEM is unchanged. It is both the
`host_reset` command and the hardware reset line. -/
def resetCore (s : State) : State := State.reset.setMem s.mem

/-- The `run` command's writes (40_instruction_cycle.md R62). -/
def beginRun (s : State) : State := (s.setFault .none 0x0000).setStatus .running

end Sys2Proof.Machine
end

