-- ==== Sys2Proof/Machine/Operands.lean ====
section
/-! DEFINITION. The operand forms: a register named by a 4-bit index (30_encoding.md R49) and the immediate `nnn`
(R48). There is no other (R49). -/

namespace Sys2Proof.Machine

/-- `V[i]` (R8, R10): what was last written to it; no register is hard-wired. -/
def readV (s : State) (i : RegIdx) : Byte := s.v[i.val]

/-- `V[i] <- b` (R8, R10). -/
def writeV (s : State) (i : RegIdx) (b : Byte) : State := s.setV i b

/-- `VF`, the carry flag: register 15 (R11). -/
def vf : RegIdx := 15

/-- `zext_16(nnn)`: the immediate, unscaled and absolute (R48). -/
def zext16 (nnn : Addr) : Half := nnn.setWidth 16

end Sys2Proof.Machine
end

