-- ==== Sys2Proof/Machine/Flags.lean ====
section
/-! DEFINITION. The ALU and its one flag, the unsigned carry (43_arithmetic.md R69, R71; 10_state.md R11). -/

namespace Sys2Proof.Machine

/-- `zext_9(a) + zext_9(b)`, the 9-bit exact sum, 0..510 (R69). -/
def sum9 (a b : Byte) : BitVec 9 := a.setWidth 9 + b.setWidth 9

/-- `sum9[7:0]`, the sum modulo 256 (R69). -/
def sumByte (a b : Byte) : Byte := (sum9 a b).extractLsb' 0 8

/-- `zext_8(sum9[8])`, the carry as the byte 0x01 or 0x00 (R11, R69). -/
def carryByte (a b : Byte) : Byte := ((sum9 a b).extractLsb' 8 1).setWidth 8

end Sys2Proof.Machine
end

