-- ==== Sys2Proof/Machine/Arithmetic.lean ====
section
/-! DEFINITION. The arithmetic family: ADD Vx, Vy (43_arithmetic.md), the only arithmetic instruction. -/

namespace Sys2Proof.Machine

/-- `ADD Vx, Vy` (R69): both sources are read before either write; the sum goes to V[x] and then the carry to V[15],
so the carry wins when x = 15 (R70; decision D8, log 11). -/
def execAdd (x y : RegIdx) (s : State) : Host.Outcome State Fault Refusal :=
  let a := readV s x
  let b := readV s y
  .next (writeV (writeV s x (sumByte a b)) vf (carryByte a b))

end Sys2Proof.Machine
end

