-- ==== Sys2Proof/Machine/Subroutine.lean ====
section
/-! DEFINITION. The subroutine family: RETURN and CALL over the stack controller (42_subroutine.md). Both run with the
post-advance IP. -/

namespace Sys2Proof.Machine

/-- `RETURN` (R66): `IP <- Pop()`. The target is not checked. -/
def execReturn (s : State) : Host.Outcome State Fault Refusal :=
  match pop s with
  | .ok (a, t) => .next (t.setIp a)
  | .error t => .next t

/-- `CALL nnn` (R68): `Push(IP)`, then `IP <- zext_16(nnn)`. The target is not checked. -/
def execCall (nnn : Addr) (s : State) : Host.Outcome State Fault Refusal :=
  match push s.ip s with
  | .ok t => .next (t.setIp (zext16 nnn))
  | .error t => .next t

end Sys2Proof.Machine
end

