-- ==== Sys2Proof/Machine/System.lean ====
section
/-! DEFINITION. The system family: HALT (41_halt.md R64), the only system instruction (60_exceptions.md R84). -/

namespace Sys2Proof.Machine

/-- `HALT` (R64): `STATUS <- HALTED`; nothing else is written. -/
def execHalt (s : State) : Host.Outcome State Fault Refusal := .next (s.setStatus .halted)

end Sys2Proof.Machine
end

