-- ==== Sys2Proof/Machine/Step.lean ====
section
/-! DEFINITION. One step of the core (40_instruction_cycle.md R55), and how an instruction is placed to run next. -/

namespace Sys2Proof.Machine

/-- `Step` (R55): fetch, advance, decode, dispatch, execute. It is taken only while STATUS = RUNNING; in any other
status the core "does nothing until the host acts" (60_exceptions.md R81), so the state is unchanged (log 4). -/
def step (s : State) : Host.Outcome State Fault Refusal :=
  if s.status = .running then
    match fetch s with
    | none => .next (raiseOutOfBounds s)
    | some op =>
      match decodeOpcode op with
      | .ok i => exec i (advance s)
      | .error _ => .next (raiseUnimplemented op (advance s))
  else .next s

/-- The host's part of a launch for one instruction (70_reset_and_hazards.md R90, R91; log 5): the opcode's two bytes
are written at IP, high byte first, and, if the core is not running, `run` is issued. An IP that no fetch accepts is
first set to 0x0000, the conventional start address (R89). -/
def State.withFetchWord (s : State) (nbits w : Nat) : State :=
  let op := tableWord nbits w
  let a : Half := if s.ip.toNat ≤ Config.lastFetch then s.ip else Config.ipReset
  let m := (s.mem.write (BitVec.ofNat 12 a.toNat) (highByte op)).write (BitVec.ofNat 12 (a.toNat + 1)) (lowByte op)
  let t := (s.setIp a).setMem m
  if s.status = .running then t else beginRun t

end Sys2Proof.Machine
end

