-- ==== Sys2Proof/Machine/HostPort.lean ====
section
/-! DEFINITION. The host port (20_memory.md R40) and the `run` command (40_instruction_cycle.md R62): the whole external
surface of the core. The commands act on the same State as the step; none is an instruction. -/

namespace Sys2Proof.Machine

/-- The commands of R40. Addresses are 12 bits and register and stack indices 4 bits, so an out-of-range one cannot be
expressed. There is no command that writes STACK, SP, STATUS, FAULT_KIND or FAULT_INFO (`HOST_STACK_WRITE = false`). -/
inductive HostCmd where
  | reset
  | readMem (a : Addr)
  | writeMem (a : Addr) (b : Byte)
  | readReg (i : RegIdx)
  | writeReg (i : RegIdx) (b : Byte)
  | readIp
  | writeIp (a : Half)
  | readSp
  | readStack (k : Fin 16)
  | readStatus
  | run
  deriving DecidableEq, Repr

/-- What a command returns to the host. -/
inductive HostReply where
  /-- A command that returns no value. -/
  | done
  /-- A byte of memory or a register. -/
  | byte (b : Byte)
  /-- IP or a stack entry. -/
  | half (a : Half)
  /-- SP. -/
  | count (n : Fin 17)
  /-- STATUS, FAULT_KIND and FAULT_INFO, the first two by their code numbers (R19, R72). -/
  | record (status : BitVec 2) (kind : BitVec 3) (info : Half)
  deriving DecidableEq, Repr

/-- The number of a status (R19; decision D4). -/
def Status.code : Status → BitVec 2
  | .idle => 0
  | .running => 1
  | .halted => 2
  | .faulted => 3

/-- The number of a fault kind (R19, R72; decision D6). -/
def FaultKind.code : FaultKind → BitVec 3
  | .none => 0
  | .stackOverflow => 1
  | .stackUnderflow => 2
  | .unimplementedOpcode => 3
  | .outOfBounds => 4

/-- The effect and the reply of a command the port accepts (R40, R62, R87). -/
def hostEffect (c : HostCmd) (s : State) : State × HostReply :=
  match c with
  | .reset => (resetCore s, .done)
  | .readMem a => (s, .byte (s.mem.read a))
  | .writeMem a b => (s.setMem (s.mem.write a b), .done)
  | .readReg i => (s, .byte (readV s i))
  | .writeReg i b => (writeV s i b, .done)
  | .readIp => (s, .half s.ip)
  | .writeIp a => (s.setIp a, .done)
  | .readSp => (s, .count s.sp)
  | .readStack k => (s, .half s.stack[k.val])
  | .readStatus => (s, .record s.status.code s.faultKind.code s.faultInfo)
  | .run => (beginRun s, .done)

/-- The host port: each command is accepted only while STATUS is not RUNNING, and is atomic (R40). While RUNNING the
host has no move (R6, R41), and the model refuses by name (log 12). -/
def hostPort (c : HostCmd) (s : State) : Host.Outcome (State × HostReply) Fault Refusal :=
  if s.status = .running then .refused .hostPortClosed else .next (hostEffect c s)

end Sys2Proof.Machine
end

