-- ==== Sys2Proof/Safety.lean ====
section
/-! DEFINITION. What claims are stated in: safe states, ended runs, the invariants of the rules, and the states the host
and the core can reach together. -/

namespace Sys2Proof.Machine

/-- The run loop (40_instruction_cycle.md R61), `n` steps of it. -/
def runCore : Nat → State → Host.Outcome State Fault Refusal
  | 0, s => .next s
  | n + 1, s =>
    match step s with
    | .next t => runCore n t
    | .fault r => .fault r
    | .refused r => .refused r

/-- "`STATUS` is not FAULTED" (60_exceptions.md R86). -/
def Safe (s : State) : Prop := s.status ≠ .faulted

/-- A run has ended: "exactly two kinds of end" (R86, R92). -/
def Ended (s : State) : Prop := s.status = .halted ∨ s.status = .faulted

/-- Two states equal in every element but the register file V. -/
def AgreeOutsideV (s t : State) : Prop :=
  s.ip = t.ip ∧ s.stack = t.stack ∧ s.sp = t.sp ∧ s.mem = t.mem ∧ s.status = t.status ∧
    s.faultKind = t.faultKind ∧ s.faultInfo = t.faultInfo

/-- The instruction the next step will execute: a fetch succeeds and its opcode decodes. -/
def Fetches (s : State) (i : Instr) : Prop := ∃ op, fetch s = some op ∧ decodeOpcode op = .ok i

/-- The opcode the next step will fetch is none of the four instructions. -/
def FetchesUnimplemented (s : State) (op : Half) : Prop :=
  fetch s = some op ∧ decodeOpcode op = .error (.unimplementedOpcode op)

/-- The call stack holds only what CALL pushes (10_state.md R18 (b), (c)): a live entry is a post-advance IP, at least 2
and at most 0x1000; any other entry is 0x0000 or such an address, stale. -/
def StackHoldsReturnAddresses (s : State) : Prop :=
  ∀ k : Fin 16, s.stack[k.val].toNat ≤ 0x1000 ∧
    (s.stack[k.val].toNat < 2 → s.stack[k.val] = 0x0000 ∧ s.sp.val ≤ k.val)

/-- Every live stack entry is the address after a CALL opcode in memory (R18 (b)). -/
def LiveEntriesFollowCalls (s : State) : Prop :=
  ∀ k : Fin 16, k.val < s.sp.val →
    2 ≤ s.stack[k.val].toNat ∧ s.stack[k.val].toNat ≤ 0x1000 ∧ ∃ nnn, Fetches (s.setIp (s.stack[k.val] - 2)) (.call nnn)

/-- The fault record says a fault exactly when STATUS = FAULTED, and its FAULT_INFO is of the kind's form
(10_state.md R19, 60_exceptions.md R72). -/
def FaultRecordCoherent (s : State) : Prop :=
  (s.faultKind = .none ↔ s.status ≠ .faulted) ∧
  (match s.faultKind with
    | .none => s.faultInfo = 0x0000
    | .stackOverflow => s.faultInfo = 0x0000
    | .stackUnderflow => s.faultInfo = 0x0000
    | .unimplementedOpcode => opcodeWellFormed s.faultInfo = false
    | .outOfBounds => 0x0FFE < s.faultInfo.toNat)

/-- The machine's invariant: canonical memory, a call stack of return addresses, a coherent fault record. -/
structure Inv (s : State) : Prop where
  memory : s.mem.wf = true
  stack  : StackHoldsReturnAddresses s
  record : FaultRecordCoherent s

/-- What can happen to the machine: a step of the core, a command the host port accepts (R40), or the hardware reset
line, which acts at any time (70_reset_and_hazards.md R87; log 18). -/
inductive Event where
  | step
  | host (c : HostCmd)
  | resetLine
  deriving DecidableEq, Repr

/-- The state after an event, if the event can happen. -/
def happens (e : Event) (s : State) : Option State :=
  match e with
  | .step => match step s with | .next t => some t | _ => none
  | .host c => match hostPort c s with | .next (t, _) => some t | _ => none
  | .resetLine => some (resetCore s)

/-- The states "reachable from reset by host commands and steps" (R18). -/
inductive Reachable : State → Prop where
  | reset : Reachable State.reset
  | event {s t : State} (e : Event) : Reachable s → happens e s = some t → Reachable t

/-- The setup commands of a standard launch (R90): host writes of memory, registers and IP. -/
def HostCmd.isSetup : HostCmd → Bool
  | .writeMem _ _ => true
  | .writeReg _ _ => true
  | .writeIp _ => true
  | .reset | .readMem _ | .readReg _ | .readIp | .readSp | .readStack _ | .readStatus | .run => false

/-- A list of host commands given to the host port one after another; the first that the port refuses ends it (R40). -/
def hostCommands : List HostCmd → State → Host.Outcome State Fault Refusal
  | [], s => .next s
  | c :: cs, s =>
    match hostPort c s with
    | .next (t, _) => hostCommands cs t
    | .fault r => .fault r
    | .refused r => .refused r

/-- The standard launch (R90), every command through the host port: `host_reset`, then setup commands, then `run`. -/
def standardLaunch (setup : List HostCmd) (s : State) : Host.Outcome State Fault Refusal :=
  hostCommands (.reset :: setup ++ [.run]) s

end Sys2Proof.Machine
end

