-- ==== Sys2Proof/Certificates/Slice0/Obligations.lean ====
section
/-! DEFINITION. The statements for the provers. Each docstring names the rule of spec/ the statement formalises, and says
where a clause rests on a decision or an inference that the spec marks as its own. -/

open Sys2Proof Sys2Proof.Machine

/-! ### Encoding -/

/-- R42, R44 to R47, R54: every instruction is well-formed, and its two bytes, whatever follows them, decode to it with
every operand at every value. -/
def Obligations.DecodeReadsBackEveryEncodedInstruction : Prop :=
  ∀ (i : Instr) (rest : List Byte), i.wellFormed = true ∧ decode (encode i ++ rest) = .ok (i, rest)

/-- R44, R45, R46, R47: an instruction has one opcode only; no bit of an opcode is dropped by the decoder. -/
def Obligations.EveryDecodedOpcodeIsTheEncoding : Prop :=
  ∀ (op : Half) (i : Instr), decodeOpcode op = .ok i → encodeOpcode i = op

/-- R43: the five fields as numbers, and where their nibbles lie in the two bytes. -/
def Obligations.FieldsAreTheOpcodeNibbles : Prop :=
  ∀ op : Half,
    (fieldsOf op).c.toNat = op.toNat / 4096 ∧
    (fieldsOf op).x.toNat = op.toNat / 256 % 16 ∧
    (fieldsOf op).y.toNat = op.toNat / 16 % 16 ∧
    (fieldsOf op).d.toNat = op.toNat % 16 ∧
    (fieldsOf op).nnn.toNat = op.toNat % 4096 ∧
    (fieldsOf op).nnn.toNat = 256 * (fieldsOf op).x.toNat + 16 * (fieldsOf op).y.toNat + (fieldsOf op).d.toNat ∧
    (highByte op).toNat = 16 * (fieldsOf op).c.toNat + (fieldsOf op).x.toNat ∧
    (lowByte op).toNat = 16 * (fieldsOf op).y.toNat + (fieldsOf op).d.toNat

/-- R44: the decoder selects each row exactly when `op AND mask = match`, with the row's fields as operands; when no row
matches the decoder refuses the opcode by name and a step that fetches it raises UnimplementedOpcode. (The format names
Z, A and R in the rule are labels without behaviour, decision D12.) -/
def Obligations.DecoderFollowsTheMatchAndMaskTable : Prop :=
  ∀ op : Half,
    (decodeOpcode op = .ok .halt ↔ op &&& 0xFFFF = 0x0000) ∧
    (decodeOpcode op = .ok .ret ↔ op &&& 0xFFFF = 0x00EE) ∧
    (∀ nnn, decodeOpcode op = .ok (.call nnn) ↔ op &&& 0xF000 = 0x2000 ∧ nnn.toNat = op.toNat % 4096) ∧
    (∀ x y, decodeOpcode op = .ok (.add x y) ↔
      op &&& 0xF00F = 0x8004 ∧ x.val = op.toNat / 256 % 16 ∧ y.val = op.toNat / 16 % 16) ∧
    (decodeOpcode op = .error (.unimplementedOpcode op) ↔ opcodeWellFormed op = false) ∧
    (∀ s : State, s.status = .running → fetch s = some op → opcodeWellFormed op = false →
      ∃ t, step s = .next t ∧ t.status = .faulted ∧ t.faultKind = .unimplementedOpcode ∧ t.faultInfo = op)

/-- R50 (its inference "derived: from rule R44"): the four patterns are pairwise disjoint, so no opcode selects two
rows. -/
def Obligations.NoOpcodeSelectsTwoRows : Prop :=
  ∀ (op : Half) (r r' : OpcodeRow), r ∈ opcodeTable → r' ∈ opcodeTable →
    r.selects op = true → r'.selects op = true → r = r'

/-- R51 (the counts are the spec's inference "derived: from rule R44"): how many opcodes of each class are not
instructions, and 61182 of them in all. -/
def Obligations.UnimplementedOpcodesPerClass : Prop :=
  (∀ c : Fin 16,
    (List.range 4096).countP (fun k => (decodeOpcode (BitVec.ofNat 16 (4096 * c.val + k))).toOption.isNone) =
      if c.val = 0 then 4094 else if c.val = 2 then 0 else if c.val = 8 then 3840 else 4096) ∧
  ((List.range 16).map fun c =>
    (List.range 4096).countP fun k => (decodeOpcode (BitVec.ofNat 16 (4096 * c + k))).toOption.isNone).sum = 61182

/-- The decode vectors X1 to X6 and UN1, UN2, UN5, UN7 of 95_test_vectors.md, the words written out there. -/
def Obligations.SampleOpcodesDecodeAsTabulated : Prop :=
  decode [0x00, 0x00] = .ok (.halt, []) ∧
  decode [0x00, 0xEE] = .ok (.ret, []) ∧
  decode [0x2A, 0xBC] = .ok (.call 0xABC, []) ∧
  decode [0x20, 0x00] = .ok (.call 0x000, []) ∧
  decode [0x8A, 0xB4] = .ok (.add 10 11, []) ∧
  decode [0x8F, 0xF4] = .ok (.add 15 15, []) ∧
  decode [0xFF, 0xFF] = .error (.unimplementedOpcode 0xFFFF) ∧
  decode [0x00, 0xE0] = .error (.unimplementedOpcode 0x00E0) ∧
  decode [0x8A, 0xB0] = .error (.unimplementedOpcode 0x8AB0) ∧
  decode [0x12, 0x00] = .error (.unimplementedOpcode 0x1200)

/-! ### The address decoder, fetch, advance, dispatch -/

/-- R29: a 16-bit address at most 0x0FFF selects the cell of its low twelve bits, its top nibble being 0; a larger one
selects nothing; a host address always selects its own cell. -/
def Obligations.AddressDecoderNeverTruncates : Prop :=
  (∀ a : Half,
    (a.toNat ≤ 0x0FFF → selectCell a.toNat = some (a.extractLsb' 0 12)) ∧
    (a.toNat ≤ 0x0FFF ↔ a.extractLsb' 12 4 = 0) ∧
    (0x0FFF < a.toNat → selectCell a.toNat = none)) ∧
  (∀ a : Addr, selectCell a.toNat = some a)

/-- R31 and R56: the fetched opcode is the byte at IP as the high byte and the byte at IP + 1 as the low byte, for every
IP at most 0x0FFE, even or odd; above it the fetch raises OutOfBounds(IP) and changes nothing else. (That FAULT_INFO is
the IP is the spec's decision D6.) -/
def Obligations.FetchIsBigEndianOrOutOfBounds : Prop :=
  ∀ s : State,
    (s.ip.toNat ≤ 0x0FFE → ∃ op, fetch s = some op ∧
      op.toNat = 256 * (s.mem.read (BitVec.ofNat 12 s.ip.toNat)).toNat +
        (s.mem.read (BitVec.ofNat 12 (s.ip.toNat + 1))).toNat) ∧
    (0x0FFE < s.ip.toNat → fetch s = none ∧
      (s.status = .running →
        step s = .next { s with status := .faulted, faultKind := .outOfBounds, faultInfo := s.ip }))

/-- R57, and what a step adds around `exec`: after a successful fetch IP advances by 2, to at most 0x1000, before the
decoded instruction executes; the advance also precedes the unimplemented-opcode fault. -/
def Obligations.StepExecutesTheDecodedInstructionAfterTheAdvance : Prop :=
  ∀ (s : State) (op : Half), s.status = .running → fetch s = some op →
    (s.ip + 2).toNat = s.ip.toNat + 2 ∧ (s.ip + 2).toNat ≤ 0x1000 ∧
    (∀ i, decodeOpcode op = .ok i → step s = exec i { s with ip := s.ip + 2 }) ∧
    (∀ e, decodeOpcode op = .error e →
      step s = .next { s with ip := s.ip + 2, status := .faulted, faultKind := .unimplementedOpcode, faultInfo := op })

/-- R55: "A step ends in exactly one of three ways." RETURN, CALL or ADD leaves the core RUNNING with its fault record
as it was; HALT leaves it HALTED; a fault leaves it FAULTED. -/
def Obligations.StepEndsInExactlyOneOfThreeWays : Prop :=
  ∀ s : State, s.status = .running → ∃ t, step s = .next t ∧
    ((t.status = .running ∧ t.faultKind = s.faultKind ∧ t.faultInfo = s.faultInfo ∧
        ∃ i, Fetches s i ∧ i ≠ .halt ∧ exec i { s with ip := s.ip + 2 } = .next t) ∨
     (t.status = .halted ∧ Fetches s .halt ∧ t = { s with ip := s.ip + 2, status := .halted }) ∨
     (t.status = .faulted ∧ t.faultKind ≠ .none ∧ ¬ Fetches s .halt ∧ ∀ x y, ¬ Fetches s (.add x y)))

/-! ### The four instructions -/

/-- R64: HALT is exactly the opcode 0x0000, sets STATUS to HALTED and writes nothing else, in every state. The last clause,
that a step of the halted core answers the same state, is the model's reading of "no further fetch occurs" (DEDUCED, log 4).
What IP holds after the whole step is the rule's own inference, stated apart. -/
def Obligations.HaltSetsHaltedAndNothingElse : Prop :=
  encode .halt = [0x00, 0x00] ∧ (∀ op, decodeOpcode op = .ok .halt ↔ op = 0x0000) ∧
  ∀ s : State, exec .halt s = .next { s with status := .halted } ∧
    step { s with status := .halted } = .next { s with status := .halted }

/-- R64's inference "derived: from 40_instruction_cycle.md rule R57" and 90_conflicts.md C3: after a HALT step IP is the
HALT's address plus 2. -/
def Obligations.HaltStepLeavesIpAfterTheOpcode : Prop :=
  ∀ s : State, s.status = .running → Fetches s .halt →
    step s = .next { s with ip := s.ip + 2, status := .halted } ∧ (s.ip + 2).toNat = s.ip.toNat + 2

/-- R66: RETURN is exactly the opcode 0x00EE; with a live entry it pops it into IP and decrements SP; with SP = 0 it
raises StackUnderflow and changes nothing. (FAULT_INFO 0x0000 is the spec's decision D6.) -/
def Obligations.ReturnPopsTheStackIntoIp : Prop :=
  encode .ret = [0x00, 0xEE] ∧ (∀ op, decodeOpcode op = .ok .ret ↔ op = 0x00EE) ∧
  ∀ s : State,
    (∀ (k : Nat) (h : k < 16), s.sp.val = k + 1 →
      exec .ret s = .next { s with sp := ⟨k, Nat.lt_succ_of_lt h⟩, ip := s.stack[k] }) ∧
    (s.sp.val = 0 → exec .ret s =
      .next { s with status := .faulted, faultKind := .stackUnderflow, faultInfo := 0x0000 })

/-- R68: CALL nnn is the opcode 0x2000 | nnn for every nnn; with a free entry it stores IP at STACK[SP], increments SP
and loads IP with nnn; with SP = 16 it raises StackOverflow and changes nothing. (FAULT_INFO 0x0000 is the spec's
decision D6.) -/
def Obligations.CallPushesIpAndJumps : Prop :=
  ∀ nnn : Addr, decodeOpcode (0x2000#16 ||| nnn.setWidth 16) = .ok (.call nnn) ∧
  ∀ s : State,
    (∀ h : s.sp.val < 16, exec (.call nnn) s =
      .next { s with stack := s.stack.set s.sp.val s.ip h, sp := ⟨s.sp.val + 1, Nat.succ_lt_succ h⟩,
                     ip := nnn.setWidth 16 }) ∧
    (s.sp.val = 16 → exec (.call nnn) s =
      .next { s with status := .faulted, faultKind := .stackOverflow, faultInfo := 0x0000 })

/-- R69: ADD Vx, Vy is the opcode 0x8004 | (x << 8) | (y << 4) for every x and y; in every state it completes, V[x] is
the sum modulo 256 (unless x = 15, where the carry is written last), V[15] is 1 if the sum exceeds 255 and 0 otherwise,
and nothing else changes. -/
def Obligations.AddWritesSumAndCarry : Prop :=
  ∀ x y : RegIdx,
    decodeOpcode (0x8004#16 ||| (BitVec.ofNat 16 x.val <<< 8) ||| (BitVec.ofNat 16 y.val <<< 4)) = .ok (.add x y) ∧
    ∀ s : State, ∃ t, exec (.add x y) s = .next t ∧
      (x ≠ 15 → t.v[x.val].toNat = (s.v[x.val].toNat + s.v[y.val].toNat) % 256) ∧
      (t.v[15] = if s.v[x.val].toNat + s.v[y.val].toNat > 255 then 0x01 else 0x00) ∧
      (∀ i : RegIdx, i ≠ x → i ≠ 15 → t.v[i.val] = s.v[i.val]) ∧
      AgreeOutsideV t s

/-- R70 ("derived: from rule R69"; that the carry wins in V[15] is the spec's decision D8, log 11): the four cases of
operand aliasing (for the registers each leaves alone, see the frame and R69 statements). -/
def Obligations.AddAliasingCases : Prop :=
  ∀ s : State,
    (∀ x : RegIdx, x ≠ 15 → ∃ t, exec (.add x x) s = .next t ∧
      t.v[x.val].toNat = 2 * s.v[x.val].toNat % 256 ∧ (t.v[15] = if 128 ≤ s.v[x.val].toNat then 0x01 else 0x00)) ∧
    (∀ x : RegIdx, x ≠ 15 → ∃ t, exec (.add x 15) s = .next t ∧
      t.v[x.val].toNat = (s.v[x.val].toNat + s.v[15].toNat) % 256 ∧
      (t.v[15] = if s.v[x.val].toNat + s.v[15].toNat > 255 then 0x01 else 0x00)) ∧
    (∀ y : RegIdx, y ≠ 15 → exec (.add 15 y) s =
      .next { s with v := s.v.set 15 (if s.v[15].toNat + s.v[y.val].toNat > 255 then 0x01 else 0x00) }) ∧
    exec (.add 15 15) s = .next { s with v := s.v.set 15 (if 128 ≤ s.v[15].toNat then 0x01 else 0x00) }

/-- The frame of the four instructions (R10, R11, R16, R28, R64, R66, R68, R69): whatever a next state of `exec` has
changed is named here, and no byte of memory reads differently. No form stores to memory. -/
def Obligations.InstructionFrames : Prop :=
  ∀ (i : Instr) (s t : State), exec i s = .next t →
    (∀ a : Addr, t.mem.read a = s.mem.read a) ∧
    (∀ r : RegIdx, t.v[r.val] ≠ s.v[r.val] → ∃ x y, i = .add x y ∧ (r = x ∨ r = 15)) ∧
    (∀ k : Fin 16, t.stack[k.val] ≠ s.stack[k.val] → ∃ nnn, i = .call nnn ∧ k.val = s.sp.val) ∧
    (t.sp ≠ s.sp → (i = .ret ∧ t.sp.val + 1 = s.sp.val) ∨ ∃ nnn, i = .call nnn ∧ t.sp.val = s.sp.val + 1) ∧
    (t.ip ≠ s.ip → i = .ret ∨ ∃ nnn, i = .call nnn) ∧
    (t.status ≠ s.status → (i = .halt ∧ t.status = .halted) ∨
      (t.status = .faulted ∧ ((i = .ret ∧ s.sp.val = 0) ∨ ∃ nnn, i = .call nnn ∧ s.sp.val = 16))) ∧
    (t.faultKind ≠ s.faultKind ∨ t.faultInfo ≠ s.faultInfo →
      (i = .ret ∧ s.sp.val = 0 ∧ t.faultKind = .stackUnderflow) ∨
      ∃ nnn, i = .call nnn ∧ s.sp.val = 16 ∧ t.faultKind = .stackOverflow)

/-! ### The stack controller and its discipline -/

/-- R65: Push stores at the slot SP names before the increment, Pop reads the slot SP names after the decrement and does
not clear it, each checks first, and neither touches any other entry. (The payload 0x0000 is the spec's decision D6.) -/
def Obligations.StackControllerPushAndPop : Prop :=
  ∀ (s : State) (a : Half),
    (∀ h : s.sp.val < 16, ∃ t, push a s = .ok t ∧ t.sp.val = s.sp.val + 1 ∧ t.stack[s.sp.val] = a ∧
      (∀ k : Fin 16, k.val ≠ s.sp.val → t.stack[k.val] = s.stack[k.val]) ∧
      t = { s with stack := t.stack, sp := t.sp } ∧ pop t = .ok (a, { t with sp := s.sp })) ∧
    (s.sp.val = 16 →
      push a s = .error { s with status := .faulted, faultKind := .stackOverflow, faultInfo := 0x0000 }) ∧
    (∀ (k : Nat) (h : k < 16), s.sp.val = k + 1 →
      pop s = .ok (s.stack[k], { s with sp := ⟨k, Nat.lt_succ_of_lt h⟩ })) ∧
    (s.sp.val = 0 →
      pop s = .error { s with status := .faulted, faultKind := .stackUnderflow, faultInfo := 0x0000 })

/-- R67: (a) a CALL at p whose target holds a RETURN comes back to p + 2 with SP, all registers and all memory as before;
(b) n nested CALLs succeed while SP + n is at most 16, one more at SP = 16 raises StackOverflow, and a RETURN at SP = 0
raises StackUnderflow. -/
def Obligations.CallAndReturnDiscipline : Prop :=
  (∀ (s : State) (nnn : Addr) (h : s.sp.val < 16), s.status = .running → Fetches s (.call nnn) →
    Fetches (s.setIp (nnn.setWidth 16)) .ret →
    (s.ip + 2).toNat = s.ip.toNat + 2 ∧
    runCore 2 s = .next { s with ip := s.ip + 2, stack := s.stack.set s.sp.val (s.ip + 2) h }) ∧
  (∀ (n : Nat) (s : State), s.status = .running → s.sp.val + n ≤ 16 →
    (∀ (k : Nat) (t : State), k < n → runCore k s = .next t → ∃ nnn, Fetches t (.call nnn)) →
    ∃ t, runCore n s = .next t ∧ t.status = .running ∧ t.sp.val = s.sp.val + n) ∧
  (∀ (s : State) (nnn : Addr), s.status = .running → s.sp.val = 16 → Fetches s (.call nnn) →
    ∃ t, step s = .next t ∧ t.status = .faulted ∧ t.faultKind = .stackOverflow) ∧
  (∀ s : State, s.status = .running → s.sp.val = 0 → Fetches s .ret →
    ∃ t, step s = .next t ∧ t.status = .faulted ∧ t.faultKind = .stackUnderflow)

/-! ### Faults -/

/-- R73, R74, R75: when a step of a running core raises StackOverflow, StackUnderflow or UnimplementedOpcode, and the
whole state each leaves. (FAULT_INFO 0x0000 is the spec's decision D6; IP is the opcode's address plus 2.) -/
def Obligations.ExecuteStageFaultsAndTheStateTheyLeave : Prop :=
  ∀ s : State, s.status = .running → ∃ t, step s = .next t ∧
    ((t.status = .faulted ∧ t.faultKind = .stackOverflow) ↔ s.sp.val = 16 ∧ ∃ nnn, Fetches s (.call nnn)) ∧
    (t.status = .faulted ∧ t.faultKind = .stackOverflow → t =
      { s with ip := s.ip + 2, status := .faulted, faultKind := .stackOverflow, faultInfo := 0x0000 }) ∧
    ((t.status = .faulted ∧ t.faultKind = .stackUnderflow) ↔ s.sp.val = 0 ∧ Fetches s .ret) ∧
    (t.status = .faulted ∧ t.faultKind = .stackUnderflow → t =
      { s with ip := s.ip + 2, status := .faulted, faultKind := .stackUnderflow, faultInfo := 0x0000 }) ∧
    ((t.status = .faulted ∧ t.faultKind = .unimplementedOpcode) ↔ ∃ op, FetchesUnimplemented s op) ∧
    (∀ op, FetchesUnimplemented s op → t =
      { s with ip := s.ip + 2, status := .faulted, faultKind := .unimplementedOpcode, faultInfo := op })

/-- R76 and R30 (that the fetch alone detects a bad address is the spec's decision D7, log 10; that FAULT_INFO is the IP
is D6): a step of a running core raises OutOfBounds exactly when IP exceeds 0x0FFE, and the state it leaves. -/
def Obligations.OutOfBoundsExactlyAboveTheLastFetch : Prop :=
  ∀ s : State, s.status = .running → ∃ t, step s = .next t ∧
    ((t.status = .faulted ∧ t.faultKind = .outOfBounds) ↔ 0x0FFE < s.ip.toNat) ∧
    (0x0FFE < s.ip.toNat →
      t = { s with status := .faulted, faultKind := .outOfBounds, faultInfo := s.ip })

/-- R72, R77, R86: a step of a running core leaves an unsafe state exactly under one of the four fault conditions, of
which no two hold together. -/
def Obligations.ExactlyFourWaysToGoWrong : Prop :=
  ∀ s : State, s.status = .running → ∃ t, step s = .next t ∧
    (¬ Safe t ↔ (0x0FFE < s.ip.toNat ∨ (∃ op, FetchesUnimplemented s op) ∨
      (s.sp.val = 16 ∧ ∃ nnn, Fetches s (.call nnn)) ∨ (s.sp.val = 0 ∧ Fetches s .ret))) ∧
    (∀ i j, Fetches s i → Fetches s j → i = j) ∧
    (∀ i op, Fetches s i → ¬ FetchesUnimplemented s op) ∧
    (0x0FFE < s.ip.toNat → (∀ i, ¬ Fetches s i) ∧ ∀ op, ¬ FetchesUnimplemented s op)

/-- R78: a fault writes STATUS, FAULT_KIND and FAULT_INFO; of what the step changed before it only the advance of IP
stands, and only for the three execute-stage faults. The last clause, that further steps answer the same faulted state, is
the model's reading of "the run loop ends; no further fetch occurs" (DEDUCED, log 4). -/
def Obligations.FaultsArePreciseAndFinal : Prop :=
  ∀ s t : State, s.status = .running → step s = .next t → t.status = .faulted →
    t = { s with ip := t.ip, status := .faulted, faultKind := t.faultKind, faultInfo := t.faultInfo } ∧
    t.faultKind ≠ .none ∧
    (t.faultKind = .outOfBounds → t.ip = s.ip) ∧
    (t.faultKind ≠ .outOfBounds → t.ip = s.ip + 2) ∧
    ∀ n, runCore n t = .next t

/-- R61, R81: a core that is not RUNNING does nothing however long it is left alone. (That such a step is a next state is
the model's reading, log 4.) -/
def Obligations.CoreIsQuietUnlessRunning : Prop :=
  ∀ s : State, s.status ≠ .running → ∀ n, runCore n s = .next s

/-! ### Whole-machine rules -/

/-- R97 and R92 ("derived: from R55, R66, R68, R69"): from every running state, whatever its stack holds, the run ends
after finitely many steps, in HALTED or FAULTED. That it then stays in that one end state is the model's reading of a step
while not RUNNING (DEDUCED, log 4). -/
def Obligations.EveryRunEnds : Prop :=
  ∀ s : State, s.status = .running → ∃ n t, Ended t ∧ ∀ m, n ≤ m → runCore m s = .next t

/-- R20, R28, R37, R39: memory is constant during a run; every address reads as it did at launch. (Steps
after the run's end are log 4.) -/
def Obligations.MemoryIsConstantDuringARun : Prop :=
  ∀ (n : Nat) (s t : State), runCore n s = .next t → t.mem = s.mem ∧ ∀ a : Addr, t.mem.read a = s.mem.read a

/-- R11, R94 (f): there is no conditional instruction, so the values in V never influence IP, STACK, SP, MEM, STATUS or the
fault record: two runs that differ only in V differ only in V after any number of steps. (Steps after a run's
end are log 4.) -/
def Obligations.RegistersNeverInfluenceControl : Prop :=
  ∀ (n : Nat) (s s' : State), AgreeOutsideV s s' →
    ∃ t t', runCore n s = .next t ∧ runCore n s' = .next t' ∧ AgreeOutsideV t t'

/-- R28, R34, R37: of all memory a step reads the two bytes it fetches and nothing else, and carries the rest along. (A
step while not RUNNING is log 4.) -/
def Obligations.StepReadsOnlyTheTwoFetchedBytes : Prop :=
  ∀ (s : State) (m : Memory),
    (s.ip.toNat ≤ 0x0FFE →
      m.read (BitVec.ofNat 12 s.ip.toNat) = s.mem.read (BitVec.ofNat 12 s.ip.toNat) ∧
      m.read (BitVec.ofNat 12 (s.ip.toNat + 1)) = s.mem.read (BitVec.ofNat 12 (s.ip.toNat + 1))) →
    ∃ t, step s = .next t ∧ step (s.setMem m) = .next (t.setMem m)

/-- R19 ("No instruction reads any of the three"; the registers themselves are decision D4): changing STATUS, FAULT_KIND and
FAULT_INFO beforehand changes nothing an instruction does: V, IP, STACK, SP and MEM come out the same, and each of the three
is either left as it was in both runs or the same in both. -/
def Obligations.NoInstructionReadsTheRunStatus : Prop :=
  ∀ (i : Instr) (s : State) (x : Status) (k : FaultKind) (w : Half),
    ∃ t t', exec i s = .next t ∧ exec i { s with status := x, faultKind := k, faultInfo := w } = .next t' ∧
      t'.v = t.v ∧ t'.ip = t.ip ∧ t'.stack = t.stack ∧ t'.sp = t.sp ∧ t'.mem = t.mem ∧
      ((t.status = s.status ∧ t'.status = x) ∨ t'.status = t.status) ∧
      ((t.faultKind = s.faultKind ∧ t'.faultKind = k) ∨ t'.faultKind = t.faultKind) ∧
      ((t.faultInfo = s.faultInfo ∧ t'.faultInfo = w) ∨ t'.faultInfo = t.faultInfo)

/-- R15 ("derived"): once a run has a first fetch in range and its live stack entries are at most 0x1000, IP never exceeds
0x1000. (Steps after the run's end are log 4.) -/
def Obligations.IpStaysAtMost1000DuringARun : Prop :=
  ∀ (n : Nat) (s t : State), s.ip.toNat ≤ 0x0FFE → (∀ k : Fin 16, k.val < s.sp.val → s.stack[k.val].toNat ≤ 0x1000) →
    runCore n s = .next t → t.ip.toNat ≤ 0x1000

/-- R14: the advance preserves the parity of IP, and an odd IP is legal, so only a CALL to an address of the other parity
or a RETURN to one can change it. -/
def Obligations.IpParityChangesOnlyByCallOrReturn : Prop :=
  ∀ s t : State, s.status = .running → step s = .next t → t.ip.toNat % 2 ≠ s.ip.toNat % 2 →
    (∃ nnn, Fetches s (.call nnn) ∧ nnn.toNat % 2 ≠ s.ip.toNat % 2 ∧ t.ip = nnn.setWidth 16) ∨
    (Fetches s .ret ∧ ∃ k : Fin 16, s.sp.val = k.val + 1 ∧ t.ip = s.stack[k.val])

/-! ### Invariants -/

/-- R18, R19, R72 and the model's memory form (log 1): every step keeps the invariant: canonical memory, a stack of return
addresses, a coherent fault record. A step while not RUNNING is log 4. -/
def Obligations.StepKeepsTheInvariant : Prop :=
  ∀ s t : State, Inv s → step s = .next t → Inv t

/-- R87, R18, R19: the state after reset meets the invariant. That its memory is canonical is about the model's own list form
(DESIGN CHOICE, log 1), which no rule names; that it lists nothing is log 2. -/
def Obligations.ResetMeetsTheInvariant : Prop := Inv State.reset

/-- R18, R19, R40 (the command list is the spec's decision D9, log 12): every command the host port accepts keeps the
invariant. Its clause on canonical memory is about the model's own list form (DESIGN CHOICE, log 1), which no rule names. -/
def Obligations.HostCommandsKeepTheInvariant : Prop :=
  ∀ (c : HostCmd) (s t : State) (r : HostReply), Inv s → hostPort c s = .next (t, r) → Inv t

/-- R18 (a), (c) and the bounds of (b) ("derived"), R19: every state reachable from reset by steps, host commands and the reset line (log 18) has
0 <= SP <= 16, only return addresses on the stack, and FAULT_KIND None exactly when not FAULTED. The invariant's remaining
clause, canonical memory, is about the model's own list form (DESIGN CHOICE, log 1), which no rule names. -/
def Obligations.ReachableStatesMeetTheInvariant : Prop :=
  ∀ s : State, Reachable s → s.sp.val ≤ 16 ∧ Inv s

/-- R18 (b) ("derived"): every live stack entry is the address after a CALL opcode in memory; an empty stack has this, and
every step keeps it. (A step while not RUNNING is log 4.) -/
def Obligations.LiveEntriesAlwaysFollowACall : Prop :=
  (∀ s : State, s.sp.val = 0 → LiveEntriesFollowCalls s) ∧
  ∀ s t : State, LiveEntriesFollowCalls s → step s = .next t → LiveEntriesFollowCalls t

/-! ### Reset and the host port -/

/-- R87 (IP 0x0000 is the spec's decision D5, the run status D4, memory untouched D3; logs 2, 8, 9): the state after
reset, and that reset of any machine gives it over that machine's memory. -/
def Obligations.ResetValues : Prop :=
  (∀ i : RegIdx, State.reset.v[i.val] = 0x00) ∧ (∀ k : Fin 16, State.reset.stack[k.val] = 0x0000) ∧
  State.reset.sp.val = 0 ∧ State.reset.ip = 0x0000 ∧ State.reset.status = .idle ∧ State.reset.faultKind = .none ∧
  State.reset.faultInfo = 0x0000 ∧ State.reset.mem = [] ∧
  ∀ s : State, resetCore s = { State.reset with mem := s.mem } ∧
    (s.status ≠ .running → hostPort .reset s = .next ({ State.reset with mem := s.mem }, .done))

/-- R40, R41 (the command list is the spec's decision D9, log 12): the port accepts every command while STATUS is not
RUNNING and none while it is. -/
def Obligations.HostPortIsOpenExactlyWhenNotRunning : Prop :=
  ∀ (c : HostCmd) (s : State),
    (s.status = .running → hostPort c s = .refused .hostPortClosed) ∧
    (s.status ≠ .running → ∃ t r, hostPort c s = .next (t, r))

/-- R40 and R62 (decisions D9, D10 and, for the code numbers, D4 and D6): what each command returns and writes. -/
def Obligations.HostCommandEffects : Prop :=
  ∀ s : State, s.status ≠ .running →
    (∀ a, hostPort (.readMem a) s = .next (s, .byte (s.mem.read a))) ∧
    (∀ i, hostPort (.readReg i) s = .next (s, .byte s.v[i.val])) ∧
    (∀ i b, hostPort (.writeReg i b) s = .next ({ s with v := s.v.set i.val b i.isLt }, .done)) ∧
    hostPort .readIp s = .next (s, .half s.ip) ∧
    (∀ a, hostPort (.writeIp a) s = .next ({ s with ip := a }, .done)) ∧
    hostPort .readSp s = .next (s, .count s.sp) ∧
    (∀ k, hostPort (.readStack k) s = .next (s, .half s.stack[k.val])) ∧
    hostPort .readStatus s = .next (s, .record
      (match s.status with | .idle => 0 | .running => 1 | .halted => 2 | .faulted => 3)
      (match s.faultKind with
        | .none => 0 | .stackOverflow => 1 | .stackUnderflow => 2 | .unimplementedOpcode => 3 | .outOfBounds => 4)
      s.faultInfo) ∧
    hostPort .run s = .next ({ s with status := .running, faultKind := .none, faultInfo := 0x0000 }, .done)

/-- R10, R40: no register is hard-wired, V[0] and V[15] included: after host_write_reg every register reads as the last value
written to it. -/
def Obligations.RegistersHoldWhatWasLastWritten : Prop :=
  ∀ (s : State) (i j : RegIdx) (b : Byte), s.status ≠ .running →
    ∃ t, hostPort (.writeReg i b) s = .next (t, .done) ∧
      hostPort (.readReg j) t = .next (t, .byte (if j = i then b else s.v[j.val]))

/-- R40 (decision D9): host_write_mem writes one byte; every other address reads as before, every other element is
unchanged, and host_read_mem then returns the byte. -/
def Obligations.HostMemoryWriteChangesOneByte : Prop :=
  ∀ (s : State) (a : Addr) (b : Byte), s.status ≠ .running → ∃ t, hostPort (.writeMem a b) s = .next (t, .done) ∧
    t.mem.read a = b ∧ (∀ x : Addr, x ≠ a → t.mem.read x = s.mem.read x) ∧ t = { s with mem := t.mem } ∧
    hostPort (.readMem a) t = .next (t, .byte b)

/-- R40 (`HOST_STACK_WRITE = false`, decision D9): no command but reset changes STACK or SP, and none but reset and run
changes STATUS or the fault record. -/
def Obligations.HostCannotWriteStackOrStatus : Prop :=
  ∀ (c : HostCmd) (s t : State) (r : HostReply), hostPort c s = .next (t, r) → c ≠ .reset →
    t.stack = s.stack ∧ t.sp = s.sp ∧
    (c ≠ .run → t.status = s.status ∧ t.faultKind = s.faultKind ∧ t.faultInfo = s.faultInfo)

/-- R90 (with the reset values of R87; decisions D3, D5, D9): from a core that is not RUNNING the host port accepts every
command of a standard launch (from a RUNNING one it refuses the first), and the launch leaves the core RUNNING with an
empty, zeroed stack and no fault recorded; each register, byte of memory and IP holds the last value the setup wrote to it,
and, where the setup wrote none, what reset left. -/
def Obligations.StandardLaunchState : Prop :=
  ∀ (setup : List HostCmd) (s : State), (∀ c ∈ setup, c.isSetup = true) →
    (s.status = .running → standardLaunch setup s = .refused .hostPortClosed) ∧
    (s.status ≠ .running → ∃ t, standardLaunch setup s = .next t ∧
      t.status = .running ∧ t.faultKind = .none ∧ t.faultInfo = 0x0000 ∧ t.sp.val = 0 ∧
      (∀ k : Fin 16, t.stack[k.val] = 0x0000) ∧
      (∀ (i : RegIdx) (b : Byte) (before after : List HostCmd), setup = before ++ .writeReg i b :: after →
        (∀ b', .writeReg i b' ∉ after) → t.v[i.val] = b) ∧
      (∀ i : RegIdx, (∀ b, .writeReg i b ∉ setup) → t.v[i.val] = 0x00) ∧
      (∀ (a : Addr) (b : Byte) (before after : List HostCmd), setup = before ++ .writeMem a b :: after →
        (∀ b', .writeMem a b' ∉ after) → t.mem.read a = b) ∧
      (∀ a : Addr, (∀ b, .writeMem a b ∉ setup) → t.mem.read a = s.mem.read a) ∧
      (∀ (a : Half) (before after : List HostCmd), setup = before ++ .writeIp a :: after →
        (∀ a', .writeIp a' ∉ after) → t.ip = a) ∧
      ((∀ a, .writeIp a ∉ setup) → t.ip = 0x0000))

/-- R31, R62, R91 and log 5 (the model's way to place an instruction): the placed opcode is the one the very next step
fetches, in a running core, and only memory, the run status and an IP out of fetch range are touched. -/
def Obligations.PlacedOpcodeIsFetchedNext : Prop :=
  ∀ (s : State) (op : Half), let u := s.withFetchWord 16 op.toNat
    u.status = .running ∧ fetch u = some op ∧ (s.ip.toNat ≤ 0x0FFE → u.ip = s.ip) ∧
    u.v = s.v ∧ u.stack = s.stack ∧ u.sp = s.sp ∧
    (s.status = .running → u.faultKind = s.faultKind ∧ u.faultInfo = s.faultInfo)

/-- The model's memory form (log 1): two canonical memories with the same written bytes are the same list, and writing a
byte that is already there changes nothing. -/
def Obligations.EqualMemoriesAreEqualData : Prop :=
  (∀ m m' : Memory, m.wf = true → m'.wf = true → (∀ a : Addr, m.written a = m'.written a) → m = m') ∧
  ∀ (m : Memory) (a : Addr) (b : Byte), m.wf = true → m.written a = some b → m.write a b = m
end

