-- ==== Sys2Proof/Laws/PerInstr.lean ====
section
/-! SUPPORT. The family of statements made per instruction: the decoder reads back what the encoder writes. -/

namespace Sys2Proof.Laws.RoundTrip

/-- The decoder reads the instruction back from its opcode, with every operand at every value. -/
def Statement (i : Instr) : Prop := decodeOpcode (encodeOpcode i) = .ok i

theorem halt : Statement .halt := rfl

theorem ret : Statement .ret := rfl

/-- CALL's class nibble has no bit among the address bits. -/
theorem bit_of_call_class : ∀ j : Fin 12, (0x2000#16).getLsbD j.val = false := by decide

theorem call (nnn : Addr) : Statement (.call nnn) := by
  have hc : (fieldsOf (encodeOpcode (.call nnn))).c = 0x2#4 := by
    simp only [fieldsOf, encodeOpcode]
    ext i hi
    have : i = 0 ∨ i = 1 ∨ i = 2 ∨ i = 3 := by omega
    rcases this with rfl | rfl | rfl | rfl <;> simp
  have hn : (fieldsOf (encodeOpcode (.call nnn))).nnn = nnn := by
    simp only [fieldsOf, encodeOpcode]
    ext i hi
    have h : (0x2000#16)[i] = false := bit_of_call_class ⟨i, hi⟩
    have h' : nnn.getLsbD i = nnn[i] := BitVec.getLsbD_eq_getElem hi
    simp [h, h', show i < 16 by omega]
  have h0 : encodeOpcode (.call nnn) ≠ 0x0000#16 := fun h => by rw [h] at hc; exact absurd hc (by decide)
  have h1 : encodeOpcode (.call nnn) ≠ 0x00EE#16 := fun h => by rw [h] at hc; exact absurd hc (by decide)
  simp [Statement, decodeOpcode, h0, h1, hc, hn]

theorem add (x y : RegIdx) : Statement (.add x y) := by
  revert x y
  unfold Statement
  decide

end Sys2Proof.Laws.RoundTrip
end

