-- ==== Sys2Proof/Laws/Decode.lean ====
section
/-! SUPPORT. The decoder's cases and the byte order, said once. -/

namespace Sys2Proof

/-- The assembled opcode as a number: 256 times the high byte plus the low byte. -/
theorem joinBytes_toNat (hi lo : Byte) : (joinBytes hi lo).toNat = 256 * hi.toNat + lo.toNat := by
  have h : (hi.setWidth 16 <<< 8 : Half).toNat = hi.toNat <<< 8 := by
    have := hi.isLt
    simp only [BitVec.toNat_shiftLeft, BitVec.toNat_setWidth, Nat.shiftLeft_eq]
    omega
  have h' : (lo.setWidth 16 : Half).toNat = lo.toNat := by
    have := lo.isLt
    simp only [BitVec.toNat_setWidth]
    omega
  rw [joinBytes, BitVec.toNat_or, h, h', ← Nat.shiftLeft_add_eq_or_of_lt lo.isLt, Nat.shiftLeft_eq]
  omega

theorem highByte_toNat (op : Half) : (highByte op).toNat = op.toNat / 256 := by
  have := op.isLt
  simp only [highByte, BitVec.extractLsb'_toNat, Nat.shiftRight_eq_div_pow]
  omega

theorem lowByte_toNat (op : Half) : (lowByte op).toNat = op.toNat % 256 := by
  simp [lowByte, BitVec.extractLsb'_toNat]

/-- An opcode's two bytes assemble to it. -/
@[simp] theorem joinBytes_highByte_lowByte (op : Half) : joinBytes (highByte op) (lowByte op) = op := by
  apply BitVec.eq_of_toNat_eq
  rw [joinBytes_toNat, highByte_toNat, lowByte_toNat]
  omega

/-- What the decoder can answer, and when. -/
theorem decodeOpcode_cases (op : Half) :
    (op = 0x0000#16 ∧ decodeOpcode op = .ok .halt) ∨
    (op = 0x00EE#16 ∧ decodeOpcode op = .ok .ret) ∨
    ((fieldsOf op).c = 0x2#4 ∧ decodeOpcode op = .ok (.call (fieldsOf op).nnn)) ∨
    ((fieldsOf op).c = 0x8#4 ∧ (fieldsOf op).d = 0x4#4 ∧
      decodeOpcode op = .ok (.add (regOperand (fieldsOf op).x) (regOperand (fieldsOf op).y))) ∨
    (op ≠ 0x0000#16 ∧ op ≠ 0x00EE#16 ∧ (fieldsOf op).c ≠ 0x2#4 ∧ ¬ ((fieldsOf op).c = 0x8#4 ∧ (fieldsOf op).d = 0x4#4) ∧
      decodeOpcode op = .error (.unimplementedOpcode op)) := by
  unfold decodeOpcode
  split
  case isTrue h => exact .inl ⟨h, rfl⟩
  split
  case isTrue h => exact .inr (.inl ⟨h, rfl⟩)
  split
  case isTrue h => exact .inr (.inr (.inl ⟨h, rfl⟩))
  split
  case isTrue h => exact .inr (.inr (.inr (.inl ⟨h.1, h.2, rfl⟩)))
  case isFalse h0 h1 h2 h3 => exact .inr (.inr (.inr (.inr ⟨h0, h1, h2, h3, rfl⟩)))

/-- A refused opcode is refused by its own name. -/
theorem decodeOpcode_error {op : Half} {e : DecodeError} (h : decodeOpcode op = .error e) :
    e = .unimplementedOpcode op := by
  rcases decodeOpcode_cases op with ⟨_, e'⟩ | ⟨_, e'⟩ | ⟨_, e'⟩ | ⟨_, _, e'⟩ | ⟨_, _, _, _, e'⟩ <;> rw [e'] at h <;> cases h
  rfl

/-- An instruction's opcode is never refused. -/
theorem decodeOpcode_encodeOpcode (i : Instr) : decodeOpcode (encodeOpcode i) = .ok i := by
  cases i with
  | halt => exact Laws.RoundTrip.halt
  | ret => exact Laws.RoundTrip.ret
  | call nnn => exact Laws.RoundTrip.call nnn
  | add x y => exact Laws.RoundTrip.add x y

end Sys2Proof
end

