-- ==== Sys2Proof/Laws/Memory.lean ====
section
/-! SUPPORT. Memory: read after write, and that every memory operation keeps the canonical form. -/

namespace Sys2Proof.Machine.Memory

/-- The canonical form as a proposition. -/
theorem wf_iff (m : Memory) :
    m.wf = true ↔ (m.Pairwise fun c d => c.1 < d.1) ∧ ∀ c ∈ m, c.1 < 4096 := by
  simp [wf]

/-- Reset's memory is canonical. -/
theorem wf_nil : Memory.wf [] = true := by decide

/-- The tail of a canonical memory is canonical. -/
theorem wf_of_cons {c : Host.Cell} {m : Memory} (h : Memory.wf (c :: m) = true) : m.wf = true := by
  rw [wf_iff] at *
  exact ⟨h.1.of_cons, fun d hd => h.2 d (List.mem_cons_of_mem _ hd)⟩

/-- Every address a write leaves listed was listed before or is the one written. -/
theorem mem_write {m : Memory} {a : Addr} {b : Byte} {c : Host.Cell} (h : c ∈ m.write a b) :
    c.1 = a.toNat ∨ ∃ d ∈ m, d.1 = c.1 := by
  induction m with
  | nil => simp [write] at h; simp [h]
  | cons d m ih =>
    obtain ⟨k, e⟩ := d
    simp only [write] at h
    split at h
    · rcases List.mem_cons.1 h with rfl | h
      · exact .inl rfl
      · exact .inr ⟨c, h, rfl⟩
    · split at h
      · rcases List.mem_cons.1 h with rfl | h
        · exact .inr ⟨_, List.mem_cons_self, rfl⟩
        · exact .inr ⟨c, List.mem_cons_of_mem _ h, rfl⟩
      · rcases List.mem_cons.1 h with rfl | h
        · exact .inr ⟨_, List.mem_cons_self, rfl⟩
        · exact (ih h).imp id fun ⟨d, hd, e⟩ => ⟨d, List.mem_cons_of_mem _ hd, e⟩

/-- A write keeps the canonical form. -/
theorem wf_write {m : Memory} (h : m.wf = true) (a : Addr) (b : Byte) : (m.write a b).wf = true := by
  induction m with
  | nil => simp [write, wf_iff, a.isLt]
  | cons d m ih =>
    obtain ⟨k, e⟩ := d
    have ih := (wf_iff _).1 (ih (wf_of_cons h))
    have ha : a.toNat < 4096 := a.isLt
    rw [wf_iff] at h
    obtain ⟨hp, hb⟩ := h
    rw [List.pairwise_cons] at hp
    simp only [write]
    split
    · rename_i hlt
      refine (wf_iff _).2 ⟨List.pairwise_cons.2 ⟨?_, List.pairwise_cons.2 hp⟩, ?_⟩
      · intro c hc
        rcases List.mem_cons.1 hc with rfl | hc
        · exact hlt
        · exact Nat.lt_trans hlt (hp.1 c hc)
      · intro c hc
        rcases List.mem_cons.1 hc with rfl | hc
        · exact ha
        · exact hb c hc
    · split
      · refine (wf_iff _).2 ⟨List.pairwise_cons.2 hp, fun c hc => ?_⟩
        rcases List.mem_cons.1 hc with rfl | hc
        · exact hb (k, e) List.mem_cons_self
        · exact hb c (List.mem_cons_of_mem _ hc)
      · refine (wf_iff _).2 ⟨List.pairwise_cons.2 ⟨fun c hc => ?_, ih.1⟩, fun c hc => ?_⟩
        · rcases mem_write hc with h | ⟨d, hd, h⟩
          · show k < c.1
            omega
          · exact h ▸ hp.1 d hd
        · rcases List.mem_cons.1 hc with rfl | hc
          · exact hb (k, e) List.mem_cons_self
          · exact ih.2 c hc

/-- An address below every listed one has no written value. -/
theorem written_eq_none_of_lt {m : Memory} {a : Addr} (h : ∀ c ∈ m, a.toNat < c.1) : m.written a = none := by
  induction m with
  | nil => rfl
  | cons c m ih =>
    have := h c List.mem_cons_self
    rw [written, if_neg (by omega), ih fun d hd => h d (List.mem_cons_of_mem _ hd)]

/-- What is written at `x` after a write at `a`. -/
theorem written_write (m : Memory) (a x : Addr) (b : Byte) :
    (m.write a b).written x = if x = a then some b else m.written x := by
  have hx : (a.toNat = x.toNat) ↔ x = a := by rw [← BitVec.toNat_inj]; exact eq_comm
  induction m with
  | nil => simp [write, written, hx]
  | cons d m ih =>
    obtain ⟨k, e⟩ := d
    simp only [write]
    split
    · simp [written, hx]
    · split
      · rename_i h
        by_cases hxa : x = a <;> simp [written, ← h, hx, hxa]
      · by_cases hk : k = x.toNat
        · have : x ≠ a := fun h => by subst h; omega
          simp [written, hk, this]
        · simp [written, hk, ih]

/-- A byte reads as the last value written to it, and a write leaves every other byte alone. -/
theorem read_write (m : Memory) (a x : Addr) (b : Byte) :
    (m.write a b).read x = if x = a then b else m.read x := by
  unfold read
  rw [written_write]
  split <;> rfl

@[simp] theorem read_write_self (m : Memory) (a : Addr) (b : Byte) : (m.write a b).read a = b := by
  simp [read_write]

theorem read_write_of_ne {m : Memory} {a x : Addr} (h : x ≠ a) (b : Byte) : (m.write a b).read x = m.read x := by
  simp [read_write, h]

/-- Before anything is written, a byte reads as the free value. -/
@[simp] theorem read_nil (a : Addr) : Memory.read [] a = Config.memImage a := rfl

end Sys2Proof.Machine.Memory
end

