-- ==== Sys2Proof/Laws/State.lean ====
section
/-! SUPPORT. One lemma per state element per update: what each update of State writes and what it leaves. -/

namespace Sys2Proof.Machine.State

variable (s : State)

@[simp] theorem setV_v (i : RegIdx) (b : Byte) : (s.setV i b).v = s.v.set i.val b i.isLt := rfl
@[simp] theorem setV_ip (i : RegIdx) (b : Byte) : (s.setV i b).ip = s.ip := rfl
@[simp] theorem setV_stack (i : RegIdx) (b : Byte) : (s.setV i b).stack = s.stack := rfl
@[simp] theorem setV_sp (i : RegIdx) (b : Byte) : (s.setV i b).sp = s.sp := rfl
@[simp] theorem setV_mem (i : RegIdx) (b : Byte) : (s.setV i b).mem = s.mem := rfl
@[simp] theorem setV_status (i : RegIdx) (b : Byte) : (s.setV i b).status = s.status := rfl
@[simp] theorem setV_faultKind (i : RegIdx) (b : Byte) : (s.setV i b).faultKind = s.faultKind := rfl
@[simp] theorem setV_faultInfo (i : RegIdx) (b : Byte) : (s.setV i b).faultInfo = s.faultInfo := rfl

@[simp] theorem setIp_v (a : Half) : (s.setIp a).v = s.v := rfl
@[simp] theorem setIp_ip (a : Half) : (s.setIp a).ip = a := rfl
@[simp] theorem setIp_stack (a : Half) : (s.setIp a).stack = s.stack := rfl
@[simp] theorem setIp_sp (a : Half) : (s.setIp a).sp = s.sp := rfl
@[simp] theorem setIp_mem (a : Half) : (s.setIp a).mem = s.mem := rfl
@[simp] theorem setIp_status (a : Half) : (s.setIp a).status = s.status := rfl
@[simp] theorem setIp_faultKind (a : Half) : (s.setIp a).faultKind = s.faultKind := rfl
@[simp] theorem setIp_faultInfo (a : Half) : (s.setIp a).faultInfo = s.faultInfo := rfl

@[simp] theorem setStack_v (k : Fin 16) (a : Half) : (s.setStack k a).v = s.v := rfl
@[simp] theorem setStack_ip (k : Fin 16) (a : Half) : (s.setStack k a).ip = s.ip := rfl
@[simp] theorem setStack_stack (k : Fin 16) (a : Half) : (s.setStack k a).stack = s.stack.set k.val a k.isLt := rfl
@[simp] theorem setStack_sp (k : Fin 16) (a : Half) : (s.setStack k a).sp = s.sp := rfl
@[simp] theorem setStack_mem (k : Fin 16) (a : Half) : (s.setStack k a).mem = s.mem := rfl
@[simp] theorem setStack_status (k : Fin 16) (a : Half) : (s.setStack k a).status = s.status := rfl
@[simp] theorem setStack_faultKind (k : Fin 16) (a : Half) : (s.setStack k a).faultKind = s.faultKind := rfl
@[simp] theorem setStack_faultInfo (k : Fin 16) (a : Half) : (s.setStack k a).faultInfo = s.faultInfo := rfl

@[simp] theorem setSp_v (n : Fin 17) : (s.setSp n).v = s.v := rfl
@[simp] theorem setSp_ip (n : Fin 17) : (s.setSp n).ip = s.ip := rfl
@[simp] theorem setSp_stack (n : Fin 17) : (s.setSp n).stack = s.stack := rfl
@[simp] theorem setSp_sp (n : Fin 17) : (s.setSp n).sp = n := rfl
@[simp] theorem setSp_mem (n : Fin 17) : (s.setSp n).mem = s.mem := rfl
@[simp] theorem setSp_status (n : Fin 17) : (s.setSp n).status = s.status := rfl
@[simp] theorem setSp_faultKind (n : Fin 17) : (s.setSp n).faultKind = s.faultKind := rfl
@[simp] theorem setSp_faultInfo (n : Fin 17) : (s.setSp n).faultInfo = s.faultInfo := rfl

@[simp] theorem setMem_v (m : Memory) : (s.setMem m).v = s.v := rfl
@[simp] theorem setMem_ip (m : Memory) : (s.setMem m).ip = s.ip := rfl
@[simp] theorem setMem_stack (m : Memory) : (s.setMem m).stack = s.stack := rfl
@[simp] theorem setMem_sp (m : Memory) : (s.setMem m).sp = s.sp := rfl
@[simp] theorem setMem_mem (m : Memory) : (s.setMem m).mem = m := rfl
@[simp] theorem setMem_status (m : Memory) : (s.setMem m).status = s.status := rfl
@[simp] theorem setMem_faultKind (m : Memory) : (s.setMem m).faultKind = s.faultKind := rfl
@[simp] theorem setMem_faultInfo (m : Memory) : (s.setMem m).faultInfo = s.faultInfo := rfl

@[simp] theorem setStatus_v (x : Status) : (s.setStatus x).v = s.v := rfl
@[simp] theorem setStatus_ip (x : Status) : (s.setStatus x).ip = s.ip := rfl
@[simp] theorem setStatus_stack (x : Status) : (s.setStatus x).stack = s.stack := rfl
@[simp] theorem setStatus_sp (x : Status) : (s.setStatus x).sp = s.sp := rfl
@[simp] theorem setStatus_mem (x : Status) : (s.setStatus x).mem = s.mem := rfl
@[simp] theorem setStatus_status (x : Status) : (s.setStatus x).status = x := rfl
@[simp] theorem setStatus_faultKind (x : Status) : (s.setStatus x).faultKind = s.faultKind := rfl
@[simp] theorem setStatus_faultInfo (x : Status) : (s.setStatus x).faultInfo = s.faultInfo := rfl

@[simp] theorem setFault_v (k : FaultKind) (w : Half) : (s.setFault k w).v = s.v := rfl
@[simp] theorem setFault_ip (k : FaultKind) (w : Half) : (s.setFault k w).ip = s.ip := rfl
@[simp] theorem setFault_stack (k : FaultKind) (w : Half) : (s.setFault k w).stack = s.stack := rfl
@[simp] theorem setFault_sp (k : FaultKind) (w : Half) : (s.setFault k w).sp = s.sp := rfl
@[simp] theorem setFault_mem (k : FaultKind) (w : Half) : (s.setFault k w).mem = s.mem := rfl
@[simp] theorem setFault_status (k : FaultKind) (w : Half) : (s.setFault k w).status = s.status := rfl
@[simp] theorem setFault_faultKind (k : FaultKind) (w : Half) : (s.setFault k w).faultKind = k := rfl
@[simp] theorem setFault_faultInfo (k : FaultKind) (w : Half) : (s.setFault k w).faultInfo = w := rfl

end Sys2Proof.Machine.State
end

