-- ==== Sys2Proof/Laws/Ops.lean ====
section
/-! SUPPORT. One lemma per shared operation that says everything it can do. -/

namespace Sys2Proof.Machine

/-! ### Address decoder, fetch, advance -/

theorem selectCell_of_lt {a : Nat} (h : a < 4096) : selectCell a = some (BitVec.ofNat 12 a) := if_pos h

theorem selectCell_of_ge {a : Nat} (h : 4096 ≤ a) : selectCell a = none := if_neg (by simpa using h)

/-- A fetch at IP ≤ 0x0FFE answers the two bytes at IP and IP + 1, high byte first. -/
theorem fetch_of_le {s : State} (h : s.ip.toNat ≤ 0x0FFE) :
    fetch s = some (joinBytes (s.mem.read (BitVec.ofNat 12 s.ip.toNat)) (s.mem.read (BitVec.ofNat 12 (s.ip.toNat + 1)))) := by
  simp only [fetch, selectCell_of_lt (show s.ip.toNat < 4096 by omega), selectCell_of_lt (show s.ip.toNat + 1 < 4096 by omega)]

/-- A fetch at IP > 0x0FFE answers nothing. -/
theorem fetch_of_gt {s : State} (h : 0x0FFE < s.ip.toNat) : fetch s = none := by
  simp only [fetch, selectCell_of_ge (show 4096 ≤ s.ip.toNat + 1 by omega)]
  split <;> simp_all

theorem fetch_eq_none_iff {s : State} : fetch s = none ↔ 0x0FFE < s.ip.toNat := by
  refine ⟨fun h => ?_, fetch_of_gt⟩
  by_contra hn
  rw [fetch_of_le (by omega)] at h
  cases h

/-- A successful fetch was in range. -/
theorem ip_le_of_fetch {s : State} {op : Half} (h : fetch s = some op) : s.ip.toNat ≤ 0x0FFE := by
  by_contra hn
  rw [fetch_of_gt (by omega)] at h
  cases h

/-- The fetch depends on IP and MEM only. -/
theorem fetch_congr {s t : State} (hi : s.ip = t.ip) (hm : s.mem = t.mem) : fetch s = fetch t := by
  simp [fetch, hi, hm]

@[simp] theorem advance_v (s : State) : (advance s).v = s.v := rfl
@[simp] theorem advance_ip (s : State) : (advance s).ip = s.ip + 2 := rfl
@[simp] theorem advance_stack (s : State) : (advance s).stack = s.stack := rfl
@[simp] theorem advance_sp (s : State) : (advance s).sp = s.sp := rfl
@[simp] theorem advance_mem (s : State) : (advance s).mem = s.mem := rfl
@[simp] theorem advance_status (s : State) : (advance s).status = s.status := rfl
@[simp] theorem advance_faultKind (s : State) : (advance s).faultKind = s.faultKind := rfl
@[simp] theorem advance_faultInfo (s : State) : (advance s).faultInfo = s.faultInfo := rfl

/-- The advance after a successful fetch does not wrap. -/
theorem advance_ip_toNat {s : State} (h : s.ip.toNat ≤ 0x0FFE) : (advance s).ip.toNat = s.ip.toNat + 2 := by
  rw [advance_ip, BitVec.toNat_add, show (2 : Half).toNat = 2 from rfl]
  omega

/-! ### Raise -/

section
variable (k : FaultKind) (w : Half) (s : State)
@[simp] theorem raise_v : (raise k w s).v = s.v := rfl
@[simp] theorem raise_ip : (raise k w s).ip = s.ip := rfl
@[simp] theorem raise_stack : (raise k w s).stack = s.stack := rfl
@[simp] theorem raise_sp : (raise k w s).sp = s.sp := rfl
@[simp] theorem raise_mem : (raise k w s).mem = s.mem := rfl
@[simp] theorem raise_status : (raise k w s).status = .faulted := rfl
@[simp] theorem raise_faultKind : (raise k w s).faultKind = k := rfl
@[simp] theorem raise_faultInfo : (raise k w s).faultInfo = w := rfl
end

/-! ### The stack controller -/

/-- What Push can do: store at SP and increment, or, on a full stack, raise. -/
theorem push_cases (a : Half) (s : State) :
    (∃ h : s.sp.val < 16, push a s = .ok ((s.setStack ⟨s.sp.val, h⟩ a).setSp ⟨s.sp.val + 1, Nat.succ_lt_succ h⟩)) ∨
    (s.sp.val = 16 ∧ push a s = .error (raise .stackOverflow 0x0000 s)) := by
  by_cases h : s.sp.val < 16
  · exact .inl ⟨h, dif_pos h⟩
  · exact .inr ⟨by omega, dif_neg h⟩

/-- What Pop can do: decrement SP and read the entry there, or, on an empty stack, raise. -/
theorem pop_cases (s : State) :
    (∃ (k : Nat) (h : k < 16), s.sp.val = k + 1 ∧ pop s = .ok (s.stack[k], s.setSp ⟨k, by omega⟩)) ∨
    (s.sp.val = 0 ∧ pop s = .error (raise .stackUnderflow 0x0000 s)) := by
  rcases hs : s.sp with ⟨_ | k, h⟩
  · exact .inr ⟨rfl, by simp [pop, hs]⟩
  · exact .inl ⟨k, by omega, rfl, by simp [pop, hs]⟩

/-! ### The ALU -/

theorem sum9_toNat (a b : Byte) : (sum9 a b).toNat = a.toNat + b.toNat := by
  have := a.isLt; have := b.isLt
  simp only [sum9, BitVec.toNat_add, BitVec.toNat_setWidth]
  omega

/-- The sum byte is the sum modulo 256. -/
theorem sumByte_toNat (a b : Byte) : (sumByte a b).toNat = (a.toNat + b.toNat) % 256 := by
  simp [sumByte, BitVec.extractLsb'_toNat, sum9_toNat]

/-- The carry byte is 1 when the sum exceeds 255 and 0 otherwise. -/
theorem carryByte_eq (a b : Byte) : carryByte a b = if 255 < a.toNat + b.toNat then 0x01 else 0x00 := by
  have := a.isLt; have := b.isLt
  apply BitVec.eq_of_toNat_eq
  simp only [carryByte, BitVec.toNat_setWidth, BitVec.extractLsb'_toNat, sum9_toNat, Nat.shiftRight_eq_div_pow]
  split <;> simp <;> omega

/-! ### Reset and run -/

@[simp] theorem resetCore_v (s : State) : (resetCore s).v = State.reset.v := rfl
@[simp] theorem resetCore_ip (s : State) : (resetCore s).ip = State.reset.ip := rfl
@[simp] theorem resetCore_stack (s : State) : (resetCore s).stack = State.reset.stack := rfl
@[simp] theorem resetCore_sp (s : State) : (resetCore s).sp = State.reset.sp := rfl
@[simp] theorem resetCore_mem (s : State) : (resetCore s).mem = s.mem := rfl
@[simp] theorem resetCore_status (s : State) : (resetCore s).status = State.reset.status := rfl
@[simp] theorem resetCore_faultKind (s : State) : (resetCore s).faultKind = State.reset.faultKind := rfl
@[simp] theorem resetCore_faultInfo (s : State) : (resetCore s).faultInfo = State.reset.faultInfo := rfl

@[simp] theorem beginRun_v (s : State) : (beginRun s).v = s.v := rfl
@[simp] theorem beginRun_ip (s : State) : (beginRun s).ip = s.ip := rfl
@[simp] theorem beginRun_stack (s : State) : (beginRun s).stack = s.stack := rfl
@[simp] theorem beginRun_sp (s : State) : (beginRun s).sp = s.sp := rfl
@[simp] theorem beginRun_mem (s : State) : (beginRun s).mem = s.mem := rfl
@[simp] theorem beginRun_status (s : State) : (beginRun s).status = .running := rfl
@[simp] theorem beginRun_faultKind (s : State) : (beginRun s).faultKind = .none := rfl
@[simp] theorem beginRun_faultInfo (s : State) : (beginRun s).faultInfo = 0x0000 := rfl

/-! ### The register file -/

/-- A register reads as the last value written to it, and a write leaves every other register alone. -/
theorem readV_writeV (s : State) (i j : RegIdx) (b : Byte) : readV (writeV s i b) j = if j = i then b else readV s j := by
  by_cases h : j = i
  · simp [readV, writeV, h]
  · have : i.val ≠ j.val := fun e => h (Fin.ext e.symm)
    simp [readV, writeV, h, this]

/-! ### Memory kept canonical -/

/-- Every host command keeps memory canonical. -/
theorem wf_hostEffect {s : State} (h : s.mem.wf = true) (c : HostCmd) : (hostEffect c s).1.mem.wf = true := by
  cases c <;> simp only [hostEffect, resetCore, beginRun, writeV, State.setMem_mem, State.setV_mem, State.setIp_mem,
    State.setStatus_mem, State.setFault_mem] <;> first | exact h | exact Memory.wf_write h _ _

end Sys2Proof.Machine
end

