-- ==== Sys2Proof/Laws/Step.lean ====
section
/-! SUPPORT. What each meaning and each step can do, said once: later proofs cite these and unfold neither. -/

namespace Sys2Proof.Machine

/-- HALT writes STATUS. -/
theorem execHalt_eq (s : State) : exec .halt s = .next (s.setStatus .halted) := rfl

/-- What RETURN can do. -/
theorem execReturn_cases (s : State) :
    (∃ (k : Nat) (h : k < 16), s.sp.val = k + 1 ∧
      exec .ret s = .next ((s.setSp ⟨k, by omega⟩).setIp s.stack[k])) ∨
    (s.sp.val = 0 ∧ exec .ret s = .next (raise .stackUnderflow 0x0000 s)) := by
  rcases pop_cases s with ⟨k, h, hk, hp⟩ | ⟨hs, hp⟩
  · exact .inl ⟨k, h, hk, by simp [exec, execReturn, hp]⟩
  · exact .inr ⟨hs, by simp [exec, execReturn, hp]⟩

/-- What CALL can do. -/
theorem execCall_cases (nnn : Addr) (s : State) :
    (∃ h : s.sp.val < 16, exec (.call nnn) s =
      .next (((s.setStack ⟨s.sp.val, h⟩ s.ip).setSp ⟨s.sp.val + 1, Nat.succ_lt_succ h⟩).setIp (zext16 nnn))) ∨
    (s.sp.val = 16 ∧ exec (.call nnn) s = .next (raise .stackOverflow 0x0000 s)) := by
  rcases push_cases s.ip s with ⟨h, hp⟩ | ⟨hs, hp⟩
  · exact .inl ⟨h, by simp [exec, execCall, hp]⟩
  · exact .inr ⟨hs, by simp [exec, execCall, hp]⟩

/-- ADD writes V[x] and then V[15]. -/
theorem execAdd_eq (x y : RegIdx) (s : State) :
    exec (.add x y) s =
      .next ((s.setV x (sumByte (readV s x) (readV s y))).setV vf (carryByte (readV s x) (readV s y))) := rfl

/-- Every meaning answers a next state. -/
theorem exec_next (i : Instr) (s : State) : ∃ t, exec i s = .next t := by
  cases i with
  | halt => exact ⟨_, rfl⟩
  | ret => rcases execReturn_cases s with ⟨_, _, _, h⟩ | ⟨_, h⟩ <;> exact ⟨_, h⟩
  | call nnn => rcases execCall_cases nnn s with ⟨_, h⟩ | ⟨_, h⟩ <;> exact ⟨_, h⟩
  | add x y => exact ⟨_, rfl⟩

/-- A meaning leaves memory alone. -/
theorem exec_mem {i : Instr} {s t : State} (h : exec i s = .next t) : t.mem = s.mem := by
  cases i with
  | halt => cases h; rfl
  | ret =>
    rcases execReturn_cases s with ⟨_, _, _, e⟩ | ⟨_, e⟩ <;> rw [e] at h <;> cases h <;> rfl
  | call nnn =>
    rcases execCall_cases nnn s with ⟨_, e⟩ | ⟨_, e⟩ <;> rw [e] at h <;> cases h <;> rfl
  | add x y => cases h; rfl

/-- What a step can do: nothing while not RUNNING; raise OutOfBounds; raise UnimplementedOpcode after the advance; or
execute the decoded instruction after the advance. -/
theorem step_cases (s : State) :
    (s.status ≠ .running ∧ step s = .next s) ∨
    (s.status = .running ∧ 0x0FFE < s.ip.toNat ∧ step s = .next (raiseOutOfBounds s)) ∨
    (s.status = .running ∧ ∃ op, fetch s = some op ∧ decodeOpcode op = .error (.unimplementedOpcode op) ∧
      step s = .next (raiseUnimplemented op (advance s))) ∨
    (s.status = .running ∧ ∃ op i, fetch s = some op ∧ decodeOpcode op = .ok i ∧ step s = exec i (advance s)) := by
  by_cases hr : s.status = .running
  · refine .inr ?_
    rcases hf : fetch s with _ | op
    · exact .inl ⟨hr, fetch_eq_none_iff.1 hf, by simp [step, hr, hf]⟩
    · refine .inr ?_
      rcases hd : decodeOpcode op with e | i
      · have := decodeOpcode_error hd
        subst this
        exact .inl ⟨hr, op, rfl, hd, by simp [step, hr, hf, hd]⟩
      · exact .inr ⟨hr, op, i, rfl, hd, by simp [step, hr, hf, hd]⟩
  · exact .inl ⟨hr, by simp [step, hr]⟩

/-- Every step answers a next state: there is no stuck state (60_exceptions.md R86). -/
theorem step_next (s : State) : ∃ t, step s = .next t := by
  rcases step_cases s with ⟨_, h⟩ | ⟨_, _, h⟩ | ⟨_, _, _, _, h⟩ | ⟨_, _, i, _, _, h⟩
  · exact ⟨_, h⟩
  · exact ⟨_, h⟩
  · exact ⟨_, h⟩
  · rw [h]; exact exec_next i _

end Sys2Proof.Machine
end

