-- ==== Sys2Proof/Laws/Run.lean ====
section
/-! SUPPORT. Runs of several steps. -/

namespace Sys2Proof.Machine

/-- At most one instruction is fetched. -/
theorem Fetches.unique {s : State} {i j : Instr} (h : Fetches s i) (h' : Fetches s j) : i = j := by
  obtain ⟨_, h1, h2⟩ := h
  obtain ⟨_, h3, h4⟩ := h'
  rw [h1] at h3
  cases h3
  rw [h2] at h4
  cases h4
  rfl

/-- An opcode that is an instruction is not unimplemented. -/
theorem Fetches.not_unimplemented {s : State} {i : Instr} {op : Half} (h : Fetches s i) : ¬ FetchesUnimplemented s op := by
  obtain ⟨_, h1, h2⟩ := h
  rintro ⟨h3, h4⟩
  rw [h1] at h3
  cases h3
  rw [h2] at h4
  cases h4

theorem Fetches.ip_le {s : State} {i : Instr} (h : Fetches s i) : s.ip.toNat ≤ 0x0FFE :=
  let ⟨_, h1, _⟩ := h
  ip_le_of_fetch h1

theorem FetchesUnimplemented.ip_le {s : State} {op : Half} (h : FetchesUnimplemented s op) : s.ip.toNat ≤ 0x0FFE :=
  ip_le_of_fetch h.1

/-- Everything a step of a running core can do, the state spelled out: the two faults before execution, then each
instruction's outcomes. -/
theorem step_running_cases {s : State} (hs : s.status = .running) : ∃ t, step s = .next t ∧
    ((0x0FFE < s.ip.toNat ∧ t = raise .outOfBounds s.ip s) ∨
     (∃ op, FetchesUnimplemented s op ∧ t = raise .unimplementedOpcode op (advance s)) ∨
     (Fetches s .halt ∧ t = (advance s).setStatus .halted) ∨
     (Fetches s .ret ∧ s.sp.val = 0 ∧ t = raise .stackUnderflow 0x0000 (advance s)) ∨
     (∃ (k : Nat) (h : k < 16), Fetches s .ret ∧ s.sp.val = k + 1 ∧
       t = ((advance s).setSp ⟨k, by omega⟩).setIp s.stack[k]) ∨
     (∃ nnn, Fetches s (.call nnn) ∧ s.sp.val = 16 ∧ t = raise .stackOverflow 0x0000 (advance s)) ∨
     (∃ nnn, ∃ h : s.sp.val < 16, Fetches s (.call nnn) ∧
       t = (((advance s).setStack ⟨s.sp.val, h⟩ (s.ip + 2)).setSp ⟨s.sp.val + 1, by omega⟩).setIp (zext16 nnn)) ∨
     (∃ x y, Fetches s (.add x y) ∧
       t = ((advance s).setV x (sumByte (readV s x) (readV s y))).setV vf (carryByte (readV s x) (readV s y)))) := by
  rcases step_cases s with ⟨h, _⟩ | ⟨_, h, e⟩ | ⟨_, op, h1, h2, e⟩ | ⟨_, op, i, h1, h2, e⟩
  · contradiction
  · exact ⟨_, e, .inl ⟨h, rfl⟩⟩
  · exact ⟨_, e, .inr (.inl ⟨op, ⟨h1, h2⟩, rfl⟩)⟩
  · have hF : Fetches s i := ⟨op, h1, h2⟩
    cases i with
    | halt => exact ⟨_, e, .inr (.inr (.inl ⟨hF, rfl⟩))⟩
    | ret =>
      rcases execReturn_cases (advance s) with ⟨k, h, hk, e'⟩ | ⟨h, e'⟩
      · exact ⟨_, e.trans e', .inr (.inr (.inr (.inr (.inl ⟨k, h, hF, hk, rfl⟩))))⟩
      · exact ⟨_, e.trans e', .inr (.inr (.inr (.inl ⟨hF, h, rfl⟩)))⟩
    | call nnn =>
      rcases execCall_cases nnn (advance s) with ⟨h, e'⟩ | ⟨h, e'⟩
      · exact ⟨_, e.trans e', .inr (.inr (.inr (.inr (.inr (.inr (.inl ⟨nnn, h, hF, rfl⟩))))))⟩
      · exact ⟨_, e.trans e', .inr (.inr (.inr (.inr (.inr (.inl ⟨nnn, hF, h, rfl⟩)))))⟩
    | add x y => exact ⟨_, e, .inr (.inr (.inr (.inr (.inr (.inr (.inr ⟨x, y, hF, rfl⟩))))))⟩

@[simp] theorem runCore_zero (s : State) : runCore 0 s = .next s := rfl

/-- One step, then the rest. -/
theorem runCore_succ {s t : State} (h : step s = .next t) (n : Nat) : runCore (n + 1) s = runCore n t := by
  rw [runCore, h]

/-- The run loop here is the host's own. -/
theorem runCore_eq_run (n : Nat) (s : State) : runCore n s = Host.Core.run Sys2Proof.core n s := by
  induction n generalizing s with
  | zero => rfl
  | succ n ih =>
    obtain ⟨t, h⟩ := step_next s
    rw [runCore_succ h, ih t]
    have h' : Sys2Proof.core.step s = .next t := h
    exact (by simp only [Host.Core.run, h'] : Host.Core.run Sys2Proof.core (n + 1) s = Host.Core.run Sys2Proof.core n t).symm

/-- Every run of `n` steps answers a next state. -/
theorem runCore_next (n : Nat) (s : State) : ∃ t, runCore n s = .next t := by
  induction n generalizing s with
  | zero => exact ⟨s, rfl⟩
  | succ n ih =>
    obtain ⟨t, h⟩ := step_next s
    rw [runCore_succ h]
    exact ih t

/-! ### The host port -/

/-- What the port does while it is open. -/
theorem hostPort_of_not_running {s : State} (h : s.status ≠ .running) (c : HostCmd) : hostPort c s = .next (hostEffect c s) :=
  if_neg h

/-- What the port does while it is closed. -/
theorem hostPort_of_running {s : State} (h : s.status = .running) (c : HostCmd) : hostPort c s = .refused .hostPortClosed :=
  if_pos h

@[simp] theorem hostCommands_nil (s : State) : hostCommands [] s = .next s := rfl

/-- One accepted command, then the rest. -/
theorem hostCommands_cons {s : State} (h : s.status ≠ .running) (c : HostCmd) (cs : List HostCmd) :
    hostCommands (c :: cs) s = hostCommands cs (hostEffect c s).1 := by
  rw [hostCommands, hostPort_of_not_running h]

/-- Commands after a list the port accepted whole. -/
theorem hostCommands_append {cs : List HostCmd} {s t : State} (h : hostCommands cs s = .next t) (ds : List HostCmd) :
    hostCommands (cs ++ ds) s = hostCommands ds t := by
  induction cs generalizing s with
  | nil => cases h; rfl
  | cons c cs ih =>
    by_cases hs : s.status = .running
    · rw [hostCommands, hostPort_of_running hs] at h
      cases h
    · rw [hostCommands_cons hs] at h
      rw [List.cons_append, hostCommands_cons hs]
      exact ih h

/-- A setup command leaves STATUS alone, so the port stays open. -/
theorem status_hostEffect_of_isSetup {c : HostCmd} (h : c.isSetup = true) (s : State) :
    (hostEffect c s).1.status = s.status := by
  cases c <;> first | rfl | cases h

/-- The port accepts every list of setup commands while the core is not running, and STATUS stays as it is. -/
theorem hostCommands_of_setup {cs : List HostCmd} {s : State} (hs : s.status ≠ .running)
    (hcs : ∀ c ∈ cs, c.isSetup = true) : ∃ t, hostCommands cs s = .next t ∧ t.status = s.status := by
  induction cs generalizing s with
  | nil => exact ⟨s, rfl, rfl⟩
  | cons c cs ih =>
    have hc := status_hostEffect_of_isSetup (hcs c List.mem_cons_self) s
    obtain ⟨t, e, h⟩ := ih (hc ▸ hs) fun d hd => hcs d (List.mem_cons_of_mem _ hd)
    exact ⟨t, by rw [hostCommands_cons hs, e], h.trans hc⟩

end Sys2Proof.Machine
end

