-- ==== Sys2Proof/Tests/Slice0.lean ====
section
/-! SUPPORT. The model's own tests: well-formedness smoke, words written out from the spec's encodings, single steps whose
results are the vectors of 95_test_vectors.md, and a witness for the hypotheses of each statement. -/

namespace Sys2Proof.Tests

open Sys2Proof.Machine

/-- A running core at `ip` over the listed bytes, otherwise as after reset. -/
def at_ (ip : Half) (cells : Memory) : State := { State.reset with ip := ip, mem := cells, status := .running }

/-- A core with `n` entries on its call stack, all of them `a`. -/
def withCalls (s : State) (n : Fin 17) (a : Half) : State := { s with sp := n, stack := Vector.replicate 16 a }

/-- `Fetches` from its parts, both of which a closed state decides. -/
theorem fetches_of {s : State} {i : Instr} (op : Half) (h : fetch s = some op) (h' : decodeOpcode op = .ok i) :
    Fetches s i := ⟨op, h, h'⟩

/-! ### Well-formedness smoke: R44, R51 (vectors UN1 to UN9) -/

theorem test_wellFormed_accepts_each_row :
    opcodeWellFormed 0x0000 = true ∧ opcodeWellFormed 0x00EE = true ∧ opcodeWellFormed 0x2ABC = true ∧
      opcodeWellFormed 0x8AB4 = true := by decide

theorem test_wellFormed_refuses_near_halt : opcodeWellFormed 0x0001 = false := by decide

theorem test_wellFormed_refuses_near_return : opcodeWellFormed 0x00E0 = false ∧ opcodeWellFormed 0x0EEE = false := by decide

theorem test_wellFormed_refuses_near_call : opcodeWellFormed 0x1200 = false := by decide

theorem test_wellFormed_refuses_near_add : opcodeWellFormed 0x8AB5 = false ∧ opcodeWellFormed 0x7004 = false := by decide

theorem test_wellFormed_operands_at_their_ends :
    (Instr.call 0xFFF).wellFormed = true ∧ (Instr.add 15 15).wellFormed = true := by decide

/-! ### Decoding words written out from R44's encodings -/

/-- `0000000000000000`. -/
theorem test_decode_halt : decode [0b00000000, 0b00000000] = .ok (.halt, []) := rfl

/-- `0000000011101110`. -/
theorem test_decode_return : decode [0b00000000, 0b11101110] = .ok (.ret, []) := rfl

/-- `0010nnnnnnnnnnnn` with nnn = 1010 1011 1100 (vector X3), and a byte after it left over. -/
theorem test_decode_call : decode [0b00101010, 0b10111100, 0x77] = .ok (.call 0xABC, [0x77]) := rfl

/-- `1000xxxxyyyy0100` with x = 1010, y = 1011 (vector X5). -/
theorem test_decode_add : decode [0b10001010, 0b10110100] = .ok (.add 10 11, []) := rfl

/-- UN5, UN6: class 8 with d other than 4. -/
theorem test_decode_refuses_by_name :
    decodeOpcode 0x8AB0 = .error (.unimplementedOpcode 0x8AB0) ∧ decodeOpcode 0x8AB5 = .error (.unimplementedOpcode 0x8AB5) :=
  ⟨rfl, rfl⟩

theorem test_decode_truncated : decode [0x80] = .error .truncated := rfl

/-- The host's numbering of a table word. -/
theorem test_decodeTableWord :
    decodeTableWord 16 0x8014 = some (.add 0 1) ∧ decodeTableWord 16 0x2FFF = some (.call 0xFFF) ∧
      decodeTableWord 16 0x00EE = some .ret ∧ decodeTableWord 16 0xFFFF = none := by decide

/-- R54: the words of the source's reference scenario (program P1). -/
theorem test_encode_reference_scenario :
    encode (.call 0x100) = [0x21, 0x00] ∧ encode (.add 0 1) = [0x80, 0x14] ∧ encode .ret = [0x00, 0xEE] ∧
      encode .halt = [0x00, 0x00] := by decide

/-! ### Single steps: the vectors of 95_test_vectors.md -/

/-- A placed instruction runs as the first after reset: A1, `ADD V0, V1` on zeros. -/
theorem test_placed_add_runs_first :
    step (State.reset.withFetchWord 16 0x8014) = .next ((State.reset.withFetchWord 16 0x8014).setIp 2) := rfl

/-- A8: 200 + 100 = 300 = 256 + 44, the old VF 0x55 lost. -/
theorem test_add_A8 :
    let s := { at_ 0 [(0, 0x82), (1, 0x34)] with v := ((Vector.replicate 16 0).set 2 0xC8).set 3 0x64 |>.set 15 0x55 }
    ∃ t, step s = .next t ∧ t.v[2] = 0x2C ∧ t.v[3] = 0x64 ∧ t.v[15] = 0x01 ∧ t.ip = 2 := ⟨_, rfl, by decide⟩

/-- A13: `ADD VF, V3` loses the sum 0x09; VF is the carry, 0. -/
theorem test_add_A13 :
    let s := { at_ 0 [(0, 0x8F), (1, 0x34)] with v := ((Vector.replicate 16 0).set 15 0x07).set 3 0x02 }
    ∃ t, step s = .next t ∧ t.v[15] = 0x00 ∧ t.v[3] = 0x02 := ⟨_, rfl, by decide⟩

/-- F3 and H1: HALT fetched at the last address leaves IP = 0x1000 and every register. -/
theorem test_halt_F3 :
    let s := (at_ 0xFFE [(0xFFE, 0x00), (0xFFF, 0x00)]).setV 3 0x77
    ∃ t, step s = .next t ∧ t.status = .halted ∧ t.ip = 0x1000 ∧ t.v[3] = 0x77 := ⟨_, rfl, by decide⟩

/-- RT1: RETURN on the empty stack. -/
theorem test_return_RT1 :
    ∃ t, step (at_ 0 [(0, 0x00), (1, 0xEE)]) = .next t ∧ t.status = .faulted ∧ t.faultKind = .stackUnderflow ∧
      t.faultInfo = 0x0000 ∧ t.sp = 0 ∧ t.ip = 2 := ⟨_, rfl, by decide⟩

/-- R66's example: SP = 1, STACK[0] = 0x0002, RETURN at 0x0104; the entry keeps its value. -/
theorem test_return_example :
    let s := withCalls (at_ 0x104 [(0x104, 0x00), (0x105, 0xEE)]) 1 0x0002
    ∃ t, step s = .next t ∧ t.sp = 0 ∧ t.ip = 0x0002 ∧ t.stack[0] = 0x0002 := ⟨_, rfl, by decide⟩

/-- CL3: a CALL at 0x0FFE pushes 0x1000. -/
theorem test_call_CL3 :
    ∃ t, step (at_ 0xFFE [(0xFFE, 0x21), (0xFFF, 0x00)]) = .next t ∧ t.stack[0] = 0x1000 ∧ t.sp = 1 ∧ t.ip = 0x0100 ∧
      t.status = .running := ⟨_, rfl, by decide⟩

/-- P3b's seventeenth CALL: nothing is stored, SP stays 16, IP is the address after the CALL. -/
theorem test_call_P3b :
    ∃ t, step (withCalls (at_ 0x20 [(0x20, 0x20), (0x21, 0x40)]) 16 0x0002) = .next t ∧ t.status = .faulted ∧
      t.faultKind = .stackOverflow ∧ t.sp = 16 ∧ t.ip = 0x0022 ∧ t.stack[15] = 0x0002 := ⟨_, rfl, by decide⟩

/-- F2: an odd IP fetches like an even one (here RETURN, on the empty stack). -/
theorem test_fetch_F2 : fetch (at_ 1 [(0, 0x21), (1, 0x00), (2, 0xEE)]) = some 0x00EE := by decide

/-- F6: 0xFFFF + 1 does not wrap. -/
theorem test_fetch_F6 :
    ∃ t, step (at_ 0xFFFF []) = .next t ∧ t.faultKind = .outOfBounds ∧ t.faultInfo = 0xFFFF ∧ t.ip = 0xFFFF :=
  ⟨_, rfl, by decide⟩

/-- UN1: 0xFFFF faults with IP advanced. -/
theorem test_unimplemented_UN1 :
    ∃ t, step (at_ 0 [(0, 0xFF), (1, 0xFF)]) = .next t ∧ t.faultKind = .unimplementedOpcode ∧ t.faultInfo = 0xFFFF ∧
      t.ip = 2 := ⟨_, rfl, by decide⟩

/-- R81: after reset the core waits for the host. -/
theorem test_reset_waits : step State.reset = .next State.reset := rfl

/-- R40: the port is closed while the core runs. -/
theorem test_port_closed : hostPort (.writeReg 0 1) (at_ 0 []) = .refused .hostPortClosed := rfl

/-- Writing memory keeps the canonical form: addresses sorted, one entry each. -/
theorem test_memory_write : (((Memory.write [] 5 1).write 3 2).write 5 7) = [(3, 2), (5, 7)] := by decide

/-! ### Witnesses: each statement's hypotheses are met together -/

/-- A running core about to execute `CALL 0x100` at 0x000, with a RETURN at 0x100. -/
def callThenReturn : State := at_ 0 [(0, 0x21), (1, 0x00), (0x100, 0x00), (0x101, 0xEE)]

theorem test_witness_EveryDecodedOpcodeIsTheEncoding : decodeOpcode 0x8014 = .ok (.add 0 1) := rfl

theorem test_witness_DecoderFollowsTheMatchAndMaskTable :
    let s := at_ 0 [(0, 0x00), (1, 0xE0)]
    s.status = .running ∧ fetch s = some 0x00E0 ∧ opcodeWellFormed 0x00E0 = false := by decide

theorem test_witness_NoOpcodeSelectsTwoRows :
    (⟨"ADD", 0x8004, 0xF00F⟩ : OpcodeRow) ∈ opcodeTable ∧ OpcodeRow.selects ⟨"ADD", 0x8004, 0xF00F⟩ 0x8FF4 = true := by decide

theorem test_witness_AddressDecoderNeverTruncates :
    (0x0FFF#16).toNat ≤ 0x0FFF ∧ 0x0FFF < (0x1000#16).toNat := by decide

theorem test_witness_FetchIsBigEndianOrOutOfBounds :
    (at_ 0x0FFE []).ip.toNat ≤ 0x0FFE ∧ 0x0FFE < (at_ 0x0FFF []).ip.toNat ∧ (at_ 0x0FFF []).status = .running := by decide

theorem test_witness_StepExecutesTheDecodedInstructionAfterTheAdvance :
    (callThenReturn.status = .running ∧ fetch callThenReturn = some 0x2100 ∧ decodeOpcode 0x2100 = .ok (.call 0x100)) ∧
    (fetch (at_ 0xFFE [(0xFFE, 0xFF), (0xFFF, 0xFF)]) = some 0xFFFF ∧
      decodeOpcode 0xFFFF = .error (.unimplementedOpcode 0xFFFF)) :=
  ⟨⟨rfl, rfl, rfl⟩, rfl, rfl⟩

theorem test_witness_StepEndsInExactlyOneOfThreeWays :
    (∃ t, step callThenReturn = .next t ∧ t.status = .running) ∧
    (∃ t, step (at_ 0 [(0, 0), (1, 0)]) = .next t ∧ t.status = .halted) ∧
    (∃ t, step (at_ 0xFFF []) = .next t ∧ t.status = .faulted) :=
  ⟨⟨_, rfl, by decide⟩, ⟨_, rfl, by decide⟩, ⟨_, rfl, by decide⟩⟩

theorem test_witness_HaltStepLeavesIpAfterTheOpcode :
    let s := at_ 0xFFE [(0xFFE, 0), (0xFFF, 0)]
    s.status = .running ∧ Fetches s .halt := ⟨rfl, fetches_of 0 rfl rfl⟩

theorem test_witness_ReturnPopsTheStackIntoIp :
    (withCalls State.reset 16 2).sp.val = 15 + 1 ∧ (withCalls State.reset 1 2).sp.val = 0 + 1 ∧ State.reset.sp.val = 0 := by
  decide

theorem test_witness_CallPushesIpAndJumps :
    State.reset.sp.val < 16 ∧ (withCalls State.reset 15 2).sp.val < 16 ∧ (withCalls State.reset 16 2).sp.val = 16 := by decide

theorem test_witness_AddWritesSumAndCarry : (14 : RegIdx) ≠ 15 ∧ (0 : RegIdx) ≠ 14 := by decide

theorem test_witness_AddAliasingCases : (14 : RegIdx) ≠ 15 := by decide

/-- Each clause of the frame has a state that changes what it names. -/
theorem test_witness_InstructionFrames :
    (∃ t, exec (.add 0 1) (State.reset.setV 1 5) = .next t ∧ t.v[0] ≠ (State.reset.setV 1 5).v[0]) ∧
    (∃ t, exec (.call 0x100) (State.reset.setIp 2) = .next t ∧ t.stack[0] ≠ State.reset.stack[0] ∧ t.sp ≠ State.reset.sp ∧
      t.ip ≠ 2) ∧
    (∃ t, exec .ret (withCalls State.reset 1 2) = .next t ∧ t.sp ≠ 1) ∧
    (∃ t, exec .halt callThenReturn = .next t ∧ t.status ≠ callThenReturn.status) ∧
    (∃ t, exec .ret State.reset = .next t ∧ t.faultKind ≠ State.reset.faultKind) :=
  ⟨⟨_, rfl, by decide⟩, ⟨_, rfl, by decide⟩, ⟨_, rfl, by decide⟩, ⟨_, rfl, by decide⟩, ⟨_, rfl, by decide⟩⟩

theorem test_witness_StackControllerPushAndPop :
    (withCalls State.reset 15 2).sp.val < 16 ∧ (withCalls State.reset 16 2).sp.val = 16 ∧
      (withCalls State.reset 16 2).sp.val = 15 + 1 ∧ State.reset.sp.val = 0 := by decide

/-- (a), (b) for the CALL that fills the stack, (c) and (d). -/
theorem test_witness_CallAndReturnDiscipline :
    (callThenReturn.sp.val < 16 ∧ callThenReturn.status = .running ∧ Fetches callThenReturn (.call 0x100) ∧
      Fetches (callThenReturn.setIp ((0x100 : Addr).setWidth 16)) .ret) ∧
    (let s := withCalls callThenReturn 15 2; s.status = .running ∧ s.sp.val + 1 ≤ 16 ∧
      ∀ (k : Nat) (t : State), k < 1 → runCore k s = .next t → ∃ nnn, Fetches t (.call nnn)) ∧
    (let s := withCalls callThenReturn 16 2; s.status = .running ∧ s.sp.val = 16 ∧ Fetches s (.call 0x100)) ∧
    (let s := at_ 0 [(0, 0x00), (1, 0xEE)]; s.status = .running ∧ s.sp.val = 0 ∧ Fetches s .ret) := by
  refine ⟨⟨by decide, rfl, fetches_of 0x2100 rfl rfl, fetches_of 0x00EE rfl rfl⟩, ⟨rfl, by decide, ?_⟩,
    ⟨rfl, rfl, fetches_of 0x2100 rfl rfl⟩, rfl, rfl, fetches_of 0x00EE rfl rfl⟩
  intro k t hk h
  obtain rfl : k = 0 := by omega
  cases h
  exact ⟨0x100, fetches_of 0x2100 rfl rfl⟩

/-- One running state for each of the three execute-stage faults. -/
theorem test_witness_ExecuteStageFaultsAndTheStateTheyLeave :
    (∃ t, step (withCalls callThenReturn 16 2) = .next t ∧ t.status = .faulted ∧ t.faultKind = .stackOverflow) ∧
    (∃ t, step (at_ 0xFFE [(0xFFE, 0x00), (0xFFF, 0xEE)]) = .next t ∧ t.status = .faulted ∧ t.faultKind = .stackUnderflow) ∧
    FetchesUnimplemented (at_ 0 [(0, 0xFF), (1, 0xFF)]) 0xFFFF :=
  ⟨⟨_, rfl, by decide⟩, ⟨_, rfl, by decide⟩, rfl, rfl⟩

theorem test_witness_OutOfBoundsExactlyAboveTheLastFetch :
    (at_ 0x0FFF []).status = .running ∧ 0x0FFE < (at_ 0x0FFF []).ip.toNat := by decide

theorem test_witness_ExactlyFourWaysToGoWrong :
    callThenReturn.status = .running ∧ Fetches callThenReturn (.call 0x100) ∧ 0x0FFE < (at_ 0x0FFF []).ip.toNat :=
  ⟨rfl, fetches_of 0x2100 rfl rfl, by decide⟩

theorem test_witness_FaultsArePreciseAndFinal :
    (∃ t, step (at_ 0 [(0, 0xFF), (1, 0xFF)]) = .next t ∧ t.status = .faulted ∧ t.faultKind ≠ .outOfBounds) ∧
    (∃ t, step (at_ 0x1000 []) = .next t ∧ t.status = .faulted ∧ t.faultKind = .outOfBounds) :=
  ⟨⟨_, rfl, by decide⟩, ⟨_, rfl, by decide⟩⟩

theorem test_witness_CoreIsQuietUnlessRunning : State.reset.status ≠ .running := by decide

theorem test_witness_EveryRunEnds : callThenReturn.status = .running := rfl

theorem test_witness_MemoryIsConstantDuringARun : ∃ t, runCore 2 callThenReturn = .next t ∧ t.ip = 2 := ⟨_, rfl, by decide⟩

/-- Two states that differ in V and agree elsewhere. -/
theorem test_witness_RegistersNeverInfluenceControl :
    AgreeOutsideV callThenReturn (callThenReturn.setV 0 9) ∧ callThenReturn ≠ callThenReturn.setV 0 9 :=
  ⟨⟨rfl, rfl, rfl, rfl, rfl, rfl, rfl⟩, by decide⟩

/-- Another memory with the same two bytes at IP. -/
theorem test_witness_StepReadsOnlyTheTwoFetchedBytes :
    let m : Memory := [(0, 0x21), (1, 0x00), (2, 0x99)]
    callThenReturn.ip.toNat ≤ 0x0FFE ∧ m ≠ callThenReturn.mem ∧ m.read 0 = callThenReturn.mem.read 0 ∧
      m.read 1 = callThenReturn.mem.read 1 := ⟨by decide, by decide, rfl, rfl⟩

theorem test_witness_IpStaysAtMost1000DuringARun :
    let s := withCalls (at_ 0xFFE [(0xFFE, 0x21), (0xFFF, 0x00)]) 1 0x1000
    s.ip.toNat ≤ 0x0FFE ∧ (∀ k : Fin 16, k.val < s.sp.val → s.stack[k.val].toNat ≤ 0x1000) ∧
      ∃ t, runCore 1 s = .next t := ⟨by decide, by decide, _, rfl⟩

/-- CL5: a CALL to an odd address from an even one, and a RETURN to an odd address. -/
theorem test_witness_IpParityChangesOnlyByCallOrReturn :
    (∃ t, step (at_ 0 [(0, 0x20), (1, 0x03)]) = .next t ∧ t.ip.toNat % 2 ≠ (at_ 0 []).ip.toNat % 2) ∧
    (∃ t, step (withCalls (at_ 0 [(0, 0x00), (1, 0xEE)]) 1 3) = .next t ∧ t.ip.toNat % 2 ≠ (at_ 0 []).ip.toNat % 2) :=
  ⟨⟨_, rfl, by decide⟩, ⟨_, rfl, by decide⟩⟩

/-- The invariant holds of a running core with a full stack and of a core that has faulted. -/
theorem test_witness_StepKeepsTheInvariant :
    Inv (withCalls callThenReturn 16 0x1000) ∧ (∃ t, step (withCalls callThenReturn 16 0x1000) = .next t) ∧
    Inv (raise .outOfBounds 0x0FFF (at_ 0x0FFF [])) :=
  ⟨⟨by decide, by unfold StackHoldsReturnAddresses; decide, by decide, rfl⟩, ⟨_, rfl⟩,
   ⟨by decide, by unfold StackHoldsReturnAddresses; decide, by decide, show 0x0FFE < (0x0FFF#16).toNat by decide⟩⟩

theorem test_witness_HostCommandsKeepTheInvariant :
    Inv (raise .outOfBounds 0x0FFF (at_ 0x0FFF [])) ∧
      ∃ t r, hostPort (.writeMem 7 1) (raise .outOfBounds 0x0FFF (at_ 0x0FFF [])) = .next (t, r) :=
  ⟨test_witness_StepKeepsTheInvariant.2.2, _, _, rfl⟩

/-- A state that host commands and one step reach: the host writes a HALT at 0x000 and issues `run`. -/
theorem test_witness_ReachableStatesMeetTheInvariant :
    ∃ s, Reachable s ∧ s.status = .halted :=
  ⟨_, .event .step (.event (.host .run) (.event (.host (.writeMem 1 0)) (.event (.host (.writeMem 0 0)) .reset rfl) rfl) rfl) rfl,
   by decide⟩

/-- A live entry after the CALL at 0x000. -/
theorem test_witness_LiveEntriesAlwaysFollowACall :
    let s := withCalls callThenReturn 1 2
    State.reset.sp.val = 0 ∧ LiveEntriesFollowCalls s ∧ ∃ t, step s = .next t := by
  refine ⟨rfl, fun k hk => ?_, _, rfl⟩
  obtain rfl : k = 0 := Fin.ext (by simpa [withCalls] using hk)
  exact ⟨by decide, by decide, 0x100, fetches_of 0x2100 rfl rfl⟩

theorem test_witness_HostPortIsOpenExactlyWhenNotRunning :
    callThenReturn.status = .running ∧ State.reset.status ≠ .running := by decide

theorem test_witness_ResetValues : (raise .stackOverflow 0 callThenReturn).status ≠ .running := by decide

theorem test_witness_HostCommandEffects : (raise .stackOverflow 0 callThenReturn).status ≠ .running := by decide

theorem test_witness_RegistersHoldWhatWasLastWritten : State.reset.status ≠ .running := by decide

theorem test_witness_HostMemoryWriteChangesOneByte : State.reset.status ≠ .running ∧ (0xFFE : Addr) ≠ 0xFFF := by decide

theorem test_witness_HostCannotWriteStackOrStatus :
    (∃ t r, hostPort (.writeIp 0xFFFF) State.reset = .next (t, r)) ∧ HostCmd.writeIp 0xFFFF ≠ .reset ∧
      HostCmd.writeIp 0xFFFF ≠ .run := ⟨⟨_, _, rfl⟩, by decide, by decide⟩

/-- A setup that writes a register twice, a byte and IP, with what follows the last write of each, and, for the clauses on
what is not written, a register and a byte it leaves alone and a setup without a write of IP. -/
theorem test_witness_StandardLaunchState :
    let setup : List HostCmd := [.writeReg 15 5, .writeMem 0xFFF 0x21, .writeReg 15 6, .writeIp 0xFFFF]
    (∀ c ∈ setup, c.isSetup = true) ∧ State.reset.status ≠ .running ∧ callThenReturn.status = .running ∧
      setup = [.writeReg 15 5, .writeMem 0xFFF 0x21] ++ .writeReg 15 6 :: [.writeIp 0xFFFF] ∧
      (∀ b, HostCmd.writeReg 15 b ∉ [HostCmd.writeIp 0xFFFF]) ∧
      setup = [.writeReg 15 5] ++ .writeMem 0xFFF 0x21 :: [.writeReg 15 6, .writeIp 0xFFFF] ∧
      (∀ b, HostCmd.writeMem 0xFFF b ∉ [HostCmd.writeReg 15 6, .writeIp 0xFFFF]) ∧
      setup = [.writeReg 15 5, .writeMem 0xFFF 0x21, .writeReg 15 6] ++ .writeIp 0xFFFF :: [] ∧
      (∀ b, HostCmd.writeReg 0 b ∉ setup) ∧ (∀ b, HostCmd.writeMem 0 b ∉ setup) ∧
      (∀ a, HostCmd.writeIp a ∉ ([.writeReg 15 5] : List HostCmd)) := by
  refine ⟨by decide, by decide, rfl, rfl, ?_, rfl, ?_, rfl, ?_, ?_, ?_⟩ <;> simp

/-- R90, R91: the last value written to a register is the one a launch starts with. -/
theorem test_launch_keeps_the_last_write :
    ∃ t, standardLaunch [.writeReg 15 5, .writeReg 15 6, .writeIp 0xFFFF] State.reset = .next t ∧ t.v[15] = 6 ∧
      t.ip = 0xFFFF := ⟨_, rfl, by decide⟩

theorem test_witness_PlacedOpcodeIsFetchedNext :
    State.reset.ip.toNat ≤ 0x0FFE ∧ callThenReturn.status = .running := by decide

theorem test_witness_EqualMemoriesAreEqualData :
    Memory.wf [(3, 2), (0xFFF, 7)] = true ∧ Memory.written [(3, 2), (0xFFF, 7)] 0xFFF = some 7 := by decide

end Sys2Proof.Tests
end

/-! # Proofs of the family "state" (10_state.md)

What `exec` and `step` answer is given once as two relations with one constructor per outcome, each proved equivalent to
the function. The facts about single state elements are read off the relations, and every statement of the family is put
together from those facts. -/

namespace Sys2Proof.Machine

/-! ### Every outcome of an instruction and of a step -/

/-- The outcomes of the four instructions, started with the post-advance IP (R64, R66, R68, R69, R73, R74). -/
inductive Executes (s : State) : Instr → State → Prop where
  | halt : Executes s .halt (s.setStatus .halted)
  | underflow (h : s.sp.val = 0) : Executes s .ret (raise .stackUnderflow 0x0000 s)
  | ret (k : Nat) (hk : k < 16) (h : s.sp.val = k + 1) :
      Executes s .ret ((s.setSp ⟨k, Nat.lt_succ_of_lt hk⟩).setIp s.stack[k])
  | overflow (nnn : Addr) (h : s.sp.val = 16) : Executes s (.call nnn) (raise .stackOverflow 0x0000 s)
  | call (nnn : Addr) (h : s.sp.val < 16) : Executes s (.call nnn)
      (((s.setStack ⟨s.sp.val, h⟩ s.ip).setSp ⟨s.sp.val + 1, Nat.succ_lt_succ h⟩).setIp (zext16 nnn))
  | add (x y : RegIdx) : Executes s (.add x y)
      ((s.setV x (sumByte (readV s x) (readV s y))).setV vf (carryByte (readV s x) (readV s y)))

/-- The outcomes of one step (R55, R75, R76, R81). -/
inductive Steps (s : State) : State → Prop where
  | quiet (h : s.status ≠ .running) : Steps s s
  | outOfBounds (hr : s.status = .running) (h : 0x0FFE < s.ip.toNat) : Steps s (raise .outOfBounds s.ip s)
  | unimplemented {op : Half} (hr : s.status = .running) (h : FetchesUnimplemented s op) :
      Steps s (raise .unimplementedOpcode op (advance s))
  | executes {i : Instr} {t : State} (hr : s.status = .running) (h : Fetches s i) (he : Executes (advance s) i t) :
      Steps s t

/-- `exec` answers exactly the outcomes of `Executes`. -/
theorem exec_eq_next_iff {i : Instr} {s t : State} : exec i s = .next t ↔ Executes s i t := by
  constructor
  · intro e
    cases i with
    | halt => cases e; exact .halt
    | ret =>
      rcases execReturn_cases s with ⟨k, hk, h, e'⟩ | ⟨h, e'⟩ <;> cases e'.symm.trans e
      · exact .ret k hk h
      · exact .underflow h
    | call nnn =>
      rcases execCall_cases nnn s with ⟨h, e'⟩ | ⟨h, e'⟩ <;> cases e'.symm.trans e
      · exact .call nnn h
      · exact .overflow nnn h
    | add x y => cases e; exact .add x y
  · intro he
    cases he with
    | halt => rfl
    | underflow h =>
      rcases execReturn_cases s with ⟨_, _, h', _⟩ | ⟨_, e⟩
      · omega
      · exact e
    | ret k hk h =>
      rcases execReturn_cases s with ⟨k', _, h', e⟩ | ⟨h', _⟩
      · obtain rfl : k = k' := by omega
        exact e
      · omega
    | overflow nnn h =>
      rcases execCall_cases nnn s with ⟨h', _⟩ | ⟨_, e⟩
      · omega
      · exact e
    | call nnn h =>
      rcases execCall_cases nnn s with ⟨_, e⟩ | ⟨h', _⟩
      · exact e
      · omega
    | add x y => rfl

/-- `step` answers exactly the outcomes of `Steps`. -/
theorem step_eq_next_iff {s t : State} : step s = .next t ↔ Steps s t := by
  constructor
  · intro e
    rcases step_cases s with ⟨h, e'⟩ | ⟨hr, h, e'⟩ | ⟨hr, op, hf, hd, e'⟩ | ⟨hr, op, i, hf, hd, e'⟩
    · cases e'.symm.trans e; exact .quiet h
    · cases e'.symm.trans e; exact .outOfBounds hr h
    · cases e'.symm.trans e; exact .unimplemented hr ⟨hf, hd⟩
    · exact .executes hr ⟨op, hf, hd⟩ (exec_eq_next_iff.1 (e'.symm.trans e))
  · intro hs
    cases hs with
    | quiet h => simp [step, h]
    | outOfBounds hr h => simp [step, hr, fetch_of_gt h, raiseOutOfBounds]
    | unimplemented hr h =>
      obtain ⟨hf, hd⟩ := h
      simp [step, hr, hf, hd, raiseUnimplemented]
    | executes hr h he =>
      obtain ⟨op, hf, hd⟩ := h
      simpa [step, hr, hf, hd] using exec_eq_next_iff.2 he

/-- What every step keeps, every run keeps. -/
theorem runCore_keeps {P : State → Prop} (hP : ∀ {s t}, P s → step s = .next t → P t) {n : Nat} {s t : State}
    (hs : P s) (h : runCore n s = .next t) : P t := by
  induction n generalizing s with
  | zero => cases h; exact hs
  | succ n ih =>
    obtain ⟨u, hu⟩ := step_next s
    exact ih (hP hs hu) (runCore_succ hu n ▸ h)

/-! ### What an instruction does to each state element -/

namespace Executes

variable {i : Instr} {s t : State}

theorem v_frame (h : Executes s i t) {r : RegIdx} (hr : t.v[r.val] ≠ s.v[r.val]) :
    ∃ x y, i = .add x y ∧ (r = x ∨ r = 15) := by
  cases h with
  | add x y =>
    refine ⟨x, y, rfl, ?_⟩
    by_contra! hn
    have hx : x.val ≠ r.val := fun e => hn.1 (Fin.ext e.symm)
    have hf : vf.val ≠ r.val := fun e => hn.2 (Fin.ext e.symm)
    simp [hx, hf] at hr
  | _ => exact absurd rfl hr

/-- IP is left alone, or is CALL's target, or is the entry that RETURN pops. -/
theorem ip_cases (h : Executes s i t) :
    t.ip = s.ip ∨ (∃ nnn, i = .call nnn ∧ t.ip = zext16 nnn) ∨
      (i = .ret ∧ ∃ k : Fin 16, s.sp.val = k.val + 1 ∧ t.ip = s.stack[k.val]) := by
  cases h with
  | call nnn => exact .inr (.inl ⟨nnn, rfl, rfl⟩)
  | ret k hk h => exact .inr (.inr ⟨rfl, ⟨k, hk⟩, h, rfl⟩)
  | _ => exact .inl rfl

theorem sp_cases (h : Executes s i t) :
    t.sp = s.sp ∨ (i = .ret ∧ t.sp.val + 1 = s.sp.val) ∨ ∃ nnn, i = .call nnn ∧ t.sp.val = s.sp.val + 1 := by
  cases h with
  | call nnn => exact .inr (.inr ⟨nnn, rfl, rfl⟩)
  | ret k hk h => exact .inr (.inl ⟨rfl, h.symm⟩)
  | _ => exact .inl rfl

/-- A stack entry is left alone and is not made live, or is the IP that CALL pushes. -/
theorem entry_cases (h : Executes s i t) (k : Fin 16) :
    (t.stack[k.val] = s.stack[k.val] ∧ (k.val < t.sp.val → k.val < s.sp.val)) ∨
      ∃ nnn, i = .call nnn ∧ k.val = s.sp.val ∧ t.stack[k.val] = s.ip := by
  cases h with
  | call nnn h =>
    by_cases hk : k.val = s.sp.val
    · exact .inr ⟨nnn, rfl, hk, by simp [hk]⟩
    · refine .inl ⟨by simp [Ne.symm hk], fun hlt => ?_⟩
      change k.val < s.sp.val + 1 at hlt
      omega
  | ret j hj h => exact .inl ⟨rfl, fun hk => by change k.val < j at hk; omega⟩
  | _ => exact .inl ⟨rfl, id⟩

theorem status_cases (h : Executes s i t) :
    t.status = s.status ∨ (i = .halt ∧ t.status = .halted) ∨
      (t.status = .faulted ∧ ((i = .ret ∧ s.sp.val = 0) ∨ ∃ nnn, i = .call nnn ∧ s.sp.val = 16)) := by
  cases h with
  | halt => exact .inr (.inl ⟨rfl, rfl⟩)
  | underflow h => exact .inr (.inr ⟨rfl, .inl ⟨rfl, h⟩⟩)
  | overflow nnn h => exact .inr (.inr ⟨rfl, .inr ⟨nnn, rfl, h⟩⟩)
  | _ => exact .inl rfl

theorem fault_cases (h : Executes s i t) :
    (t.faultKind = s.faultKind ∧ t.faultInfo = s.faultInfo) ∨
      (i = .ret ∧ s.sp.val = 0 ∧ t.faultKind = .stackUnderflow) ∨
      ∃ nnn, i = .call nnn ∧ s.sp.val = 16 ∧ t.faultKind = .stackOverflow := by
  cases h with
  | underflow h => exact .inr (.inl ⟨rfl, h, rfl⟩)
  | overflow nnn h => exact .inr (.inr ⟨nnn, rfl, h, rfl⟩)
  | _ => exact .inl ⟨rfl, rfl⟩

/-- The same instruction over another register file has the same outcome, but for the register file. -/
theorem withV (h : Executes s i t) (w : Vector Byte 16) : ∃ w', Executes { s with v := w } i { t with v := w' } := by
  cases h with
  | halt => exact ⟨w, .halt⟩
  | underflow h => exact ⟨w, .underflow h⟩
  | ret k hk h => exact ⟨w, .ret k hk h⟩
  | overflow nnn h => exact ⟨w, .overflow nnn h⟩
  | call nnn h => exact ⟨w, .call nnn (by exact h)⟩
  | add x y => exact ⟨_, .add x y⟩

end Executes

/-! ### What a step does to each state element -/

namespace Steps

variable {s t : State}

theorem mem_eq (h : Steps s t) : t.mem = s.mem := by
  cases h with
  | executes _ _ he => exact (exec_mem (exec_eq_next_iff.2 he)).trans (advance_mem s)
  | _ => rfl

/-- IP stays, or advances by 2, or is the target of the CALL executed, or the entry that the RETURN executed pops. -/
theorem ip_cases (h : Steps s t) :
    t.ip = s.ip ∨ (s.ip.toNat ≤ 0x0FFE ∧ t.ip.toNat = s.ip.toNat + 2) ∨
      (∃ nnn, Fetches s (.call nnn) ∧ t.ip = zext16 nnn) ∨
      (Fetches s .ret ∧ ∃ k : Fin 16, s.sp.val = k.val + 1 ∧ t.ip = s.stack[k.val]) := by
  cases h with
  | quiet | outOfBounds => exact .inl rfl
  | unimplemented _ hf => exact .inr (.inl ⟨hf.ip_le, advance_ip_toNat hf.ip_le⟩)
  | executes _ hf he =>
    rcases he.ip_cases with e | ⟨nnn, rfl, e⟩ | ⟨rfl, e⟩
    · exact .inr (.inl ⟨hf.ip_le, e ▸ advance_ip_toNat hf.ip_le⟩)
    · exact .inr (.inr (.inl ⟨nnn, hf, e⟩))
    · exact .inr (.inr (.inr ⟨hf, e⟩))

/-- A stack entry is left alone and is not made live, or is the address after the CALL executed. -/
theorem entry_cases (h : Steps s t) (k : Fin 16) :
    (t.stack[k.val] = s.stack[k.val] ∧ (k.val < t.sp.val → k.val < s.sp.val)) ∨
      ∃ nnn, Fetches s (.call nnn) ∧ t.stack[k.val] = s.ip + 2 := by
  cases h with
  | executes _ hf he =>
    rcases he.entry_cases k with e | ⟨nnn, rfl, -, e⟩
    · exact .inl e
    · exact .inr ⟨nnn, hf, e⟩
  | _ => exact .inl ⟨rfl, id⟩

/-- A step over another register file has the same outcome, but for the register file. -/
theorem withV (h : Steps s t) (w : Vector Byte 16) : ∃ w', Steps { s with v := w } { t with v := w' } := by
  cases h with
  | quiet h => exact ⟨w, .quiet h⟩
  | outOfBounds hr h => exact ⟨w, .outOfBounds hr h⟩
  | unimplemented hr h => exact ⟨w, .unimplemented hr h⟩
  | executes hr h he =>
    obtain ⟨w', he'⟩ := he.withV w
    exact ⟨w', .executes hr h he'⟩

end Steps

/-! ### Frames and noninterference -/

/-- Settles O18: each clause is the fact about its state element. -/
theorem instructionFrames : Obligations.InstructionFrames := by
  intro i s t e
  have h := exec_eq_next_iff.1 e
  refine ⟨fun a => by rw [exec_mem e], fun r => h.v_frame, fun k hk => ?_, fun hne => ?_, fun hne => ?_, fun hne => ?_,
    fun hne => ?_⟩
  · obtain ⟨e, -⟩ | ⟨nnn, hi, hsp, -⟩ := h.entry_cases k
    · contradiction
    · exact ⟨nnn, hi, hsp⟩
  · exact h.sp_cases.resolve_left hne
  · obtain ⟨nnn, hi, -⟩ | ⟨hi, -⟩ := h.ip_cases.resolve_left hne
    · exact .inr ⟨nnn, hi⟩
    · exact .inl hi
  · exact h.status_cases.resolve_left hne
  · exact h.fault_cases.resolve_left fun ⟨hk, hw⟩ => hne.elim (· hk) (· hw)

/-- Agreeing outside V is differing in the field `v` alone. -/
theorem agreeOutsideV_iff {s s' : State} : AgreeOutsideV s s' ↔ ∃ w, s' = { s with v := w } := by
  constructor
  · rintro ⟨hip, hstack, hsp, hmem, hstatus, hkind, hinfo⟩
    refine ⟨s'.v, ?_⟩
    rw [hip, hstack, hsp, hmem, hstatus, hkind, hinfo]
  · rintro ⟨w, rfl⟩
    exact ⟨rfl, rfl, rfl, rfl, rfl, rfl, rfl⟩

/-- A step keeps the agreement of two states outside V. -/
theorem step_agreeOutsideV {s s' : State} (h : AgreeOutsideV s s') :
    ∃ t t', step s = .next t ∧ step s' = .next t' ∧ AgreeOutsideV t t' := by
  obtain ⟨w, rfl⟩ := agreeOutsideV_iff.1 h
  obtain ⟨t, e⟩ := step_next s
  obtain ⟨w', e'⟩ := (step_eq_next_iff.1 e).withV w
  exact ⟨t, _, e, step_eq_next_iff.2 e', agreeOutsideV_iff.2 ⟨w', rfl⟩⟩

/-- Settles O28, by induction on the number of steps. -/
theorem registersNeverInfluenceControl : Obligations.RegistersNeverInfluenceControl := by
  intro n
  induction n with
  | zero => exact fun s s' h => ⟨s, s', rfl, rfl, h⟩
  | succ n ih =>
    intro s s' h
    obtain ⟨t, t', e, e', ht⟩ := step_agreeOutsideV h
    rw [runCore_succ e, runCore_succ e']
    exact ih t t' ht

/-- Settles O30: the same outcome is possible whatever the run status, and what it writes to the run status is a constant. -/
theorem noInstructionReadsTheRunStatus : Obligations.NoInstructionReadsTheRunStatus := by
  intro i s x k w
  obtain ⟨t, e⟩ := exec_next i s
  refine ⟨t, ?_⟩
  cases exec_eq_next_iff.1 e with
  | halt => exact ⟨_, e, rfl, rfl, rfl, rfl, rfl, rfl, .inr rfl, .inl ⟨rfl, rfl⟩, .inl ⟨rfl, rfl⟩⟩
  | underflow h =>
    exact ⟨_, e, exec_eq_next_iff.2 (.underflow h), rfl, rfl, rfl, rfl, rfl, .inr rfl, .inr rfl, .inr rfl⟩
  | ret j hj h =>
    exact ⟨_, e, exec_eq_next_iff.2 (.ret j hj h), rfl, rfl, rfl, rfl, rfl, .inl ⟨rfl, rfl⟩, .inl ⟨rfl, rfl⟩,
      .inl ⟨rfl, rfl⟩⟩
  | overflow nnn h =>
    exact ⟨_, e, exec_eq_next_iff.2 (.overflow nnn h), rfl, rfl, rfl, rfl, rfl, .inr rfl, .inr rfl, .inr rfl⟩
  | call nnn h =>
    exact ⟨_, e, exec_eq_next_iff.2 (.call nnn (by exact h)), rfl, rfl, rfl, rfl, rfl, .inl ⟨rfl, rfl⟩, .inl ⟨rfl, rfl⟩,
      .inl ⟨rfl, rfl⟩⟩
  | add => exact ⟨_, e, rfl, rfl, rfl, rfl, rfl, rfl, .inl ⟨rfl, rfl⟩, .inl ⟨rfl, rfl⟩, .inl ⟨rfl, rfl⟩⟩

/-! ### Memory and IP during a run -/

/-- Settles O27: no step writes memory, so no run does. -/
theorem memoryIsConstantDuringARun : Obligations.MemoryIsConstantDuringARun := by
  intro n s t h
  have hm : t.mem = s.mem :=
    runCore_keeps (P := fun u => u.mem = s.mem) (fun hu e => (step_eq_next_iff.1 e).mem_eq.trans hu) rfl h
  exact ⟨hm, fun a => by rw [hm]⟩

/-- IP and every address that a RETURN can load into it are at most 0x1000 (R15). -/
def IpAndLiveEntriesInRange (s : State) : Prop :=
  s.ip.toNat ≤ 0x1000 ∧ ∀ k : Fin 16, k.val < s.sp.val → s.stack[k.val].toNat ≤ 0x1000

theorem zext16_toNat (nnn : Addr) : (zext16 nnn).toNat = nnn.toNat :=
  BitVec.toNat_setWidth_of_le (by decide)

theorem Fetches.ip_add_two_toNat {s : State} {i : Instr} (h : Fetches s i) : (s.ip + 2).toNat = s.ip.toNat + 2 :=
  advance_ip_toNat h.ip_le

theorem Steps.ipAndLiveEntriesInRange {s t : State} (h : Steps s t) (hs : IpAndLiveEntriesInRange s) :
    IpAndLiveEntriesInRange t := by
  obtain ⟨hip, hlive⟩ := hs
  constructor
  · rcases h.ip_cases with e | ⟨hle, e⟩ | ⟨nnn, -, e⟩ | ⟨-, k, hk, e⟩ <;> rw [e]
    · exact hip
    · omega
    · have := nnn.isLt
      rw [zext16_toNat]
      omega
    · exact hlive k (by omega)
  · intro k hk
    rcases h.entry_cases k with ⟨e, hk'⟩ | ⟨nnn, hf, e⟩ <;> rw [e]
    · exact hlive k (hk' hk)
    · have := hf.ip_le
      rw [hf.ip_add_two_toNat]
      omega

/-- Settles O31: the bound on IP is kept together with that on the live entries. -/
theorem ipStaysAtMost1000DuringARun : Obligations.IpStaysAtMost1000DuringARun := by
  intro n s t hip hlive h
  have ht : IpAndLiveEntriesInRange t :=
    runCore_keeps (fun hs e => (step_eq_next_iff.1 e).ipAndLiveEntriesInRange hs) ⟨by omega, hlive⟩ h
  exact ht.1

/-- Settles O32: of the ways a step moves IP, only the CALL and the RETURN can change its parity. -/
theorem ipParityChangesOnlyByCallOrReturn : Obligations.IpParityChangesOnlyByCallOrReturn := by
  intro s t _ e hne
  rcases (step_eq_next_iff.1 e).ip_cases with e | ⟨-, e⟩ | ⟨nnn, hf, e⟩ | hret
  · rw [e] at hne
    contradiction
  · omega
  · rw [e, zext16_toNat] at hne
    exact .inl ⟨nnn, hf, hne, e⟩
  · exact .inr hret

/-! ### The invariant -/

/-- A mask of ones keeps a nibble. -/
theorem nibble_and_ones (n : BitVec 4) : n &&& 0xF#4 = n := BitVec.and_allOnes

/-- A mask of ones keeps an opcode. -/
theorem opcode_and_ones (op : Half) : op &&& 0xFFFF#16 = op := BitVec.and_allOnes

/-- An opcode that the decoder refuses selects no row of the table. -/
theorem opcodeWellFormed_eq_false {op : Half} {e : DecodeError} (h : decodeOpcode op = .error e) :
    opcodeWellFormed op = false := by
  rcases decodeOpcode_cases op with ⟨-, e'⟩ | ⟨-, e'⟩ | ⟨-, e'⟩ | ⟨-, -, e'⟩ | ⟨hhalt, hret, hcall, hadd, -⟩
  iterate 4 cases e'.symm.trans h
  have hcall' : op &&& 0xF000#16 ≠ 0x2000#16 := fun hm => hcall <| by
    have hc := congrArg (BitVec.extractLsb' 12 4) hm
    simpa [fieldsOf, BitVec.extractLsb'_and, nibble_and_ones] using hc
  have hadd' : op &&& 0xF00F#16 ≠ 0x8004#16 := fun hm => hadd <| by
    have hc := congrArg (BitVec.extractLsb' 12 4) hm
    have hd := congrArg (BitVec.extractLsb' 0 4) hm
    exact ⟨by simpa [fieldsOf, BitVec.extractLsb'_and, nibble_and_ones] using hc,
      by simpa [fieldsOf, BitVec.extractLsb'_and, nibble_and_ones] using hd⟩
  simp [opcodeWellFormed, opcodeTable, OpcodeRow.selects, opcode_and_ones, hhalt, hret, hcall', hadd']

/-- Away from FAULTED a coherent record is the empty one. -/
theorem faultRecordCoherent_iff_of_ne {s : State} (h : s.status ≠ .faulted) :
    FaultRecordCoherent s ↔ s.faultKind = .none ∧ s.faultInfo = 0x0000 := by
  constructor
  · rintro ⟨hk, hi⟩
    have hnone := hk.2 h
    rw [hnone] at hi
    exact ⟨hnone, hi⟩
  · rintro ⟨hk, hi⟩
    exact ⟨⟨fun _ => h, fun _ => hk⟩, by rw [hk]; exact hi⟩

/-- A running core's instruction leaves a coherent record. -/
theorem Executes.faultRecordCoherent {i : Instr} {s t : State} (h : Executes s i t) (hr : s.status = .running)
    (hs : FaultRecordCoherent s) : FaultRecordCoherent t := by
  cases h with
  | halt =>
    rw [faultRecordCoherent_iff_of_ne (by simp [hr])] at hs
    exact (faultRecordCoherent_iff_of_ne (by simp)).2 hs
  | underflow | overflow => exact ⟨by simp, rfl⟩
  | ret | call | add => exact hs

theorem Steps.faultRecordCoherent {s t : State} (h : Steps s t) (hs : FaultRecordCoherent s) :
    FaultRecordCoherent t := by
  cases h with
  | quiet => exact hs
  | outOfBounds _ h => exact ⟨by simp, h⟩
  | unimplemented _ h => exact ⟨by simp, opcodeWellFormed_eq_false h.2⟩
  | executes hr _ he => exact he.faultRecordCoherent hr hs

theorem Steps.stackHoldsReturnAddresses {s t : State} (h : Steps s t) (hs : StackHoldsReturnAddresses s) :
    StackHoldsReturnAddresses t := by
  intro k
  rcases h.entry_cases k with ⟨e, hlive⟩ | ⟨nnn, hf, e⟩ <;> rw [e]
  · obtain ⟨hle, hsmall⟩ := hs k
    refine ⟨hle, fun hlt => ?_⟩
    obtain ⟨hzero, hstale⟩ := hsmall hlt
    exact ⟨hzero, by omega⟩
  · have := hf.ip_le
    rw [hf.ip_add_two_toNat]
    omega

/-- Settles O33, clause by clause. -/
theorem stepKeepsTheInvariant : Obligations.StepKeepsTheInvariant := by
  intro s t hs e
  have h := step_eq_next_iff.1 e
  exact ⟨h.mem_eq ▸ hs.memory, h.stackHoldsReturnAddresses hs.stack, h.faultRecordCoherent hs.record⟩

/-- Reset over a canonical memory meets the invariant. -/
theorem inv_resetCore {s : State} (h : s.mem.wf = true) : Inv (resetCore s) where
  memory := h
  stack k := by simp [State.reset]
  record := (faultRecordCoherent_iff_of_ne (by simp [State.reset])).2 ⟨rfl, rfl⟩

/-- Settles O34: reset is reset over the empty memory. -/
theorem resetMeetsTheInvariant : Obligations.ResetMeetsTheInvariant :=
  inv_resetCore (s := State.reset) Memory.wf_nil

/-- Every host command's effect keeps the invariant: only `reset` writes the stack, only `reset` and `run` the record. -/
theorem inv_hostEffect {s : State} (h : Inv s) (c : HostCmd) : Inv (hostEffect c s).1 where
  memory := wf_hostEffect h.memory c
  stack := by
    cases c with
    | reset => exact (inv_resetCore h.memory).stack
    | _ => exact h.stack
  record := by
    cases c with
    | reset => exact (inv_resetCore h.memory).record
    | run => exact (faultRecordCoherent_iff_of_ne (by simp [hostEffect])).2 ⟨rfl, rfl⟩
    | _ => exact h.record

/-- What the port accepts takes effect. -/
theorem eq_hostEffect_of_hostPort {c : HostCmd} {s : State} {p : State × HostReply} (h : hostPort c s = .next p) :
    p = hostEffect c s := by
  by_cases hr : s.status = .running
  · rw [hostPort_of_running hr] at h
    cases h
  · rw [hostPort_of_not_running hr] at h
    cases h
    rfl

/-- Settles O35. -/
theorem hostCommandsKeepTheInvariant : Obligations.HostCommandsKeepTheInvariant := by
  intro c s t r hs h
  have ht : t = (hostEffect c s).1 := congrArg Prod.fst (eq_hostEffect_of_hostPort h)
  exact ht ▸ inv_hostEffect hs c

/-- Every event keeps the invariant. -/
theorem inv_happens {e : Event} {s t : State} (hs : Inv s) (h : happens e s = some t) : Inv t := by
  cases e with
  | step =>
    obtain ⟨u, hu⟩ := step_next s
    simp only [happens, hu, Option.some.injEq] at h
    exact h ▸ stepKeepsTheInvariant s u hs hu
  | host c =>
    rcases hp : hostPort c s with ⟨u, r⟩ | _ | _ <;> simp only [happens, hp, Option.some.injEq, reduceCtorEq] at h
    exact h ▸ hostCommandsKeepTheInvariant c s u r hs hp
  | resetLine =>
    cases h
    exact inv_resetCore hs.memory

/-- Settles O36, by induction on how the state is reached. -/
theorem reachableStatesMeetTheInvariant : Obligations.ReachableStatesMeetTheInvariant := by
  intro s h
  refine ⟨Nat.le_of_lt_succ s.sp.isLt, ?_⟩
  induction h with
  | reset => exact resetMeetsTheInvariant
  | event e _ he ih => exact inv_happens ih he

/-! ### Live entries follow CALLs -/

/-- What is fetched depends on IP and MEM alone. -/
theorem Fetches.congr {s t : State} {i : Instr} (h : Fetches s i) (hip : t.ip = s.ip) (hmem : t.mem = s.mem) :
    Fetches t i := by
  obtain ⟨op, hf, hd⟩ := h
  exact ⟨op, (fetch_congr hip hmem).trans hf, hd⟩

/-- Settles O37: a step leaves memory alone, and the entry it may add is the address after the CALL it executed. -/
theorem liveEntriesAlwaysFollowACall : Obligations.LiveEntriesAlwaysFollowACall := by
  refine ⟨fun s h k hk => by omega, fun s t hs e k hk => ?_⟩
  have h := step_eq_next_iff.1 e
  rcases h.entry_cases k with ⟨e, hlive⟩ | ⟨nnn, hf, e⟩ <;> rw [e]
  · obtain ⟨hge, hle, nnn, hf⟩ := hs k (hlive hk)
    exact ⟨hge, hle, nnn, hf.congr rfl h.mem_eq⟩
  · have hle := hf.ip_le
    have htwo := hf.ip_add_two_toNat
    exact ⟨by omega, by omega, nnn, hf.congr (by simp) h.mem_eq⟩

/-! ### Memory as data and the register file through the host port -/

namespace Memory

/-- In a canonical memory the written bytes are exactly the listed ones. -/
theorem written_eq_some_iff {m : Memory} (h : m.wf = true) {a : Addr} {b : Byte} :
    m.written a = some b ↔ (a.toNat, b) ∈ m := by
  induction m with
  | nil => simp [written]
  | cons c m ih =>
    obtain ⟨k, e⟩ := c
    have hlt := (List.pairwise_cons.1 ((wf_iff _).1 h).1).1
    by_cases hk : k = a.toNat
    · have hnot : (a.toNat, b) ∉ m := fun hm => (hlt _ hm).ne hk
      simp [written, hk, hnot, eq_comm]
    · simp [written, hk, Ne.symm hk, ih (wf_of_cons h)]

/-- A canonical memory is determined by its written bytes: same members, and both lists strictly rising. -/
theorem eq_of_written_eq {m m' : Memory} (h : m.wf = true) (h' : m'.wf = true)
    (hw : ∀ a : Addr, m.written a = m'.written a) : m = m' := by
  obtain ⟨hp, hb⟩ := (wf_iff m).1 h
  obtain ⟨hp', hb'⟩ := (wf_iff m').1 h'
  have hmem : ∀ (a : Addr) (b : Byte), (a.toNat, b) ∈ m ↔ (a.toNat, b) ∈ m' := fun a b => by
    rw [← written_eq_some_iff h, ← written_eq_some_iff h', hw]
  have hiff : ∀ c, c ∈ m ↔ c ∈ m' := by
    rintro ⟨k, b⟩
    by_cases hk : k < 4096
    · have := hmem (BitVec.ofNat 12 k) b
      rwa [BitVec.toNat_ofNat, Nat.mod_eq_of_lt hk] at this
    · exact ⟨fun hm => absurd (hb _ hm) hk, fun hm => absurd (hb' _ hm) hk⟩
  have hperm : m.Perm m' := (List.perm_ext_iff_of_nodup
    (hp.imp fun hlt e => (e ▸ hlt).ne rfl) (hp'.imp fun hlt e => (e ▸ hlt).ne rfl)).2 hiff
  exact hperm.eq_of_pairwise (fun _ _ _ _ hlt hgt => absurd hgt hlt.asymm) hp hp'

end Memory

/-- Settles O46: a write of what is there leaves every written byte as it is, so the first clause gives the second. -/
theorem equalMemoriesAreEqualData : Obligations.EqualMemoriesAreEqualData := by
  refine ⟨fun m m' => Memory.eq_of_written_eq, fun m a b h hw => ?_⟩
  refine Memory.eq_of_written_eq (Memory.wf_write h a b) h fun x => ?_
  rw [Memory.written_write]
  split
  next hx => rw [hx, hw]
  next => rfl

/-- Settles O41: a write of a register through the port, read back through the port. -/
theorem registersHoldWhatWasLastWritten : Obligations.RegistersHoldWhatWasLastWritten := by
  intro s i j b h
  refine ⟨writeV s i b, hostPort_of_not_running h _, ?_⟩
  rw [hostPort_of_not_running (s := writeV s i b) h, hostEffect, readV_writeV]
  rfl

end Sys2Proof.Machine

/-! # Proofs of the family "memory" (20_memory.md)

The fetch, the only reader of memory in a step, and the host port, its only writer. The fetch statements rest
on the outcomes of a step (`Steps`), each carried over to another memory that fetches the same opcode; the host port's
rest on `hostPort_of_not_running` and what `hostEffect` leaves alone. -/

namespace Sys2Proof.Machine

/-! ### A fetch out of bounds -/

/-- A fetch above 0x0FFE writes the run status, with the IP in the record, and nothing else (R30, R76). -/
theorem step_of_ip_gt {s : State} (hr : s.status = .running) (h : 0x0FFE < s.ip.toNat) :
    step s = .next { s with status := .faulted, faultKind := .outOfBounds, faultInfo := s.ip } :=
  step_eq_next_iff.2 (.outOfBounds hr h)

/-- The faults that an instruction raises are those of the stack (R73, R74). -/
theorem Executes.faultKind_ne_outOfBounds {i : Instr} {s t : State} (h : Executes s i t) (hr : s.status = .running)
    (ht : t.status = .faulted) : t.faultKind ≠ .outOfBounds := by
  cases h with
  | underflow | overflow => simp
  | halt => simp at ht
  | ret | call | add => cases hr.symm.trans ht

/-- A step of a running core that raises OutOfBounds is a fetch above 0x0FFE (R76). -/
theorem Steps.ip_gt_of_outOfBounds {s t : State} (h : Steps s t) (hr : s.status = .running)
    (ht : t.status = .faulted) (hk : t.faultKind = .outOfBounds) : 0x0FFE < s.ip.toNat := by
  cases h with
  | quiet hn => contradiction
  | outOfBounds _ h => exact h
  | unimplemented => simp at hk
  | executes _ _ he => exact absurd hk (he.faultKind_ne_outOfBounds hr ht)

/-- Settles O22: the fetch above 0x0FFE raises OutOfBounds, and no other outcome of a step does. -/
theorem outOfBoundsExactlyAboveTheLastFetch : Obligations.OutOfBoundsExactlyAboveTheLastFetch := by
  intro s hr
  obtain ⟨t, e⟩ := step_next s
  have hout : 0x0FFE < s.ip.toNat →
      t = { s with status := .faulted, faultKind := .outOfBounds, faultInfo := s.ip } := fun h => by
    cases e.symm.trans (step_of_ip_gt hr h)
    rfl
  refine ⟨t, e, ⟨fun ⟨ht, hk⟩ => (step_eq_next_iff.1 e).ip_gt_of_outOfBounds hr ht hk, fun h => ?_⟩, hout⟩
  rw [hout h]
  exact ⟨rfl, rfl⟩

/-- Settles O9. -/
theorem fetchIsBigEndianOrOutOfBounds : Obligations.FetchIsBigEndianOrOutOfBounds := fun _ =>
  ⟨fun h => ⟨_, fetch_of_le h, joinBytes_toNat _ _⟩, fun h => ⟨fetch_of_gt h, fun hr => step_of_ip_gt hr h⟩⟩

/-! ### A step over another memory -/

/-- Memories that agree on the two bytes at an IP in range fetch alike (R31, R56). -/
theorem fetch_setMem {s : State} {m : Memory}
    (h : s.ip.toNat ≤ 0x0FFE →
      m.read (BitVec.ofNat 12 s.ip.toNat) = s.mem.read (BitVec.ofNat 12 s.ip.toNat) ∧
      m.read (BitVec.ofNat 12 (s.ip.toNat + 1)) = s.mem.read (BitVec.ofNat 12 (s.ip.toNat + 1))) :
    fetch (s.setMem m) = fetch s := by
  by_cases hip : s.ip.toNat ≤ 0x0FFE
  · obtain ⟨hhi, hlo⟩ := h hip
    rw [fetch_of_le hip, fetch_of_le (s := s.setMem m) hip, State.setMem_mem, State.setMem_ip, hhi, hlo]
  · rw [fetch_of_gt (Nat.lt_of_not_le hip), fetch_of_gt (s := s.setMem m) (Nat.lt_of_not_le hip)]

/-- The same instruction over another memory has the same outcome, over that memory (R28). -/
theorem Executes.setMem {i : Instr} {s t : State} (h : Executes s i t) (m : Memory) :
    Executes (s.setMem m) i (t.setMem m) := by
  cases h with
  | halt => exact .halt
  | underflow h => exact .underflow h
  | ret k hk h => exact .ret k hk h
  | overflow nnn h => exact .overflow nnn h
  | call nnn h => exact .call (s := s.setMem m) nnn h
  | add x y => exact .add x y

/-- A step over another memory that fetches the same opcode has the same outcome, over that memory. -/
theorem Steps.setMem {s t : State} (h : Steps s t) {m : Memory} (hf : fetch (s.setMem m) = fetch s) :
    Steps (s.setMem m) (t.setMem m) := by
  cases h with
  | quiet h => exact .quiet h
  | outOfBounds hr h => exact .outOfBounds (s := s.setMem m) hr h
  | unimplemented hr h => exact .unimplemented (s := s.setMem m) hr ⟨hf.trans h.1, h.2⟩
  | executes hr h he =>
    obtain ⟨op, ho, hd⟩ := h
    exact .executes hr ⟨op, hf.trans ho, hd⟩ (he.setMem m)

/-- Settles O29: the other memory fetches the same opcode, and nothing after the fetch looks at memory. -/
theorem stepReadsOnlyTheTwoFetchedBytes : Obligations.StepReadsOnlyTheTwoFetchedBytes := by
  intro s m h
  obtain ⟨t, e⟩ := step_next s
  exact ⟨t, e, step_eq_next_iff.2 ((step_eq_next_iff.1 e).setMem (fetch_setMem h))⟩

/-! ### The address decoder -/

/-- Settles O8. -/
theorem addressDecoderNeverTruncates : Obligations.AddressDecoderNeverTruncates := by
  refine ⟨fun a => ⟨fun h => ?_, ?_, fun h => selectCell_of_ge h⟩, fun a => ?_⟩
  · rw [selectCell_of_lt (by omega)]
    exact congrArg some (BitVec.eq_of_toNat_eq (by simp))
  · have := a.isLt
    rw [← BitVec.toNat_inj, BitVec.extractLsb'_toNat, Nat.shiftRight_eq_div_pow]
    change a.toNat ≤ 0x0FFF ↔ a.toNat / 2 ^ 12 % 2 ^ 4 = 0
    omega
  · rw [selectCell_of_lt a.isLt, BitVec.ofNat_toNat, BitVec.setWidth_eq]

/-! ### A placed opcode -/

/-- Two bytes written side by side read back as written. -/
theorem Memory.read_write_write (n : Nat) (m : Memory) (hi lo : Byte) :
    let m' := (m.write (BitVec.ofNat 12 n) hi).write (BitVec.ofNat 12 (n + 1)) lo
    m'.read (BitVec.ofNat 12 n) = hi ∧ m'.read (BitVec.ofNat 12 (n + 1)) = lo := by
  have hne : BitVec.ofNat 12 n ≠ BitVec.ofNat 12 (n + 1) := fun e => by
    have := congrArg BitVec.toNat e
    simp only [BitVec.toNat_ofNat] at this
    omega
  exact ⟨(read_write_of_ne hne lo).trans (read_write_self m _ hi), read_write_self _ _ lo⟩

theorem tableWord_toNat (op : Half) : tableWord 16 op.toNat = op := by
  rw [tableWord, Nat.mod_eq_of_lt op.isLt, BitVec.ofNat_toNat, BitVec.setWidth_eq]

namespace State

/-- Where `withFetchWord` places an opcode: at IP, or at 0x0000 if no fetch accepts IP (R89, log 5). -/
def placeIp (s : State) : Half := if s.ip.toNat ≤ Config.lastFetch then s.ip else Config.ipReset

theorem placeIp_of_le {s : State} (h : s.ip.toNat ≤ 0x0FFE) : s.placeIp = s.ip := if_pos h

theorem placeIp_le (s : State) : s.placeIp.toNat ≤ 0x0FFE := by
  unfold placeIp
  split
  next h => exact h
  next => decide

/-- What `withFetchWord` does before `run`: an opcode's two bytes placed, high byte first, and IP set to the first. -/
def place (s : State) (op : Half) : State :=
  (s.setIp s.placeIp).setMem
    ((s.mem.write (BitVec.ofNat 12 s.placeIp.toNat) (highByte op)).write
      (BitVec.ofNat 12 (s.placeIp.toNat + 1)) (lowByte op))

/-- A placed opcode is the one fetched (R31, R91). -/
theorem fetch_place (s : State) (op : Half) : fetch (s.place op) = some op := by
  obtain ⟨hhi, hlo⟩ := Memory.read_write_write s.placeIp.toNat s.mem (highByte op) (lowByte op)
  rw [fetch_of_le (s := s.place op) s.placeIp_le]
  simp only [place, setMem_mem, setMem_ip, setIp_ip, hhi, hlo, joinBytes_highByte_lowByte]

/-- `withFetchWord` places the opcode and, if the core is not running, issues `run` (R62, R90). -/
theorem withFetchWord_eq (s : State) (op : Half) :
    s.withFetchWord 16 op.toNat = if s.status = .running then s.place op else beginRun (s.place op) := by
  unfold withFetchWord
  rw [tableWord_toNat]
  rfl

end State

/-- Settles O45, with and without the `run` that starts the core: `run` leaves IP and memory as placed. -/
theorem placedOpcodeIsFetchedNext : Obligations.PlacedOpcodeIsFetchedNext := by
  intro s op
  rw [State.withFetchWord_eq]
  split
  next hr => exact ⟨hr, s.fetch_place op, State.placeIp_of_le, rfl, rfl, rfl, fun _ => ⟨rfl, rfl⟩⟩
  next hr =>
    have hf : fetch (beginRun (s.place op)) = some op := (fetch_congr rfl rfl).trans (s.fetch_place op)
    exact ⟨rfl, hf, State.placeIp_of_le, rfl, rfl, rfl, fun h => absurd h hr⟩

/-! ### The host port -/

/-- Settles O39. -/
theorem hostPortIsOpenExactlyWhenNotRunning : Obligations.HostPortIsOpenExactlyWhenNotRunning := fun c _ =>
  ⟨fun h => hostPort_of_running h c, fun h => ⟨_, _, hostPort_of_not_running h c⟩⟩

/-- Settles O40: an open port answers each command's effect. -/
theorem hostCommandEffects : Obligations.HostCommandEffects := by
  intro s h
  have hport := hostPort_of_not_running h
  exact ⟨fun _ => hport _, fun _ => hport _, fun _ _ => hport _, hport _, fun _ => hport _, hport _, fun _ => hport _,
    hport _, hport _⟩

/-- Settles O42: the byte is written by one `Memory.write`, and the port, still open, reads it back. -/
theorem hostMemoryWriteChangesOneByte : Obligations.HostMemoryWriteChangesOneByte := by
  intro s a b h
  have hself : (s.mem.write a b).read a = b := Memory.read_write_self s.mem a b
  have hopen : (s.setMem (s.mem.write a b)).status ≠ .running := h
  refine ⟨_, hostPort_of_not_running h _, hself, fun x hx => Memory.read_write_of_ne hx b, rfl, ?_⟩
  rw [hostPort_of_not_running hopen, hostEffect, State.setMem_mem, hself]

/-- Only `reset` writes the call stack (`HOST_STACK_WRITE = false`). -/
theorem hostEffect_stack_sp {c : HostCmd} (hc : c ≠ .reset) (s : State) :
    (hostEffect c s).1.stack = s.stack ∧ (hostEffect c s).1.sp = s.sp := by
  cases c with
  | reset => contradiction
  | _ => exact ⟨rfl, rfl⟩

/-- Only `reset` and `run` write the run status. -/
theorem hostEffect_runStatus {c : HostCmd} (hc : c ≠ .reset) (hc' : c ≠ .run) (s : State) :
    (hostEffect c s).1.status = s.status ∧ (hostEffect c s).1.faultKind = s.faultKind ∧
      (hostEffect c s).1.faultInfo = s.faultInfo := by
  cases c with
  | reset | run => contradiction
  | _ => exact ⟨rfl, rfl, rfl⟩

/-- Settles O43: what the port accepts is the command's effect, which leaves these elements alone. -/
theorem hostCannotWriteStackOrStatus : Obligations.HostCannotWriteStackOrStatus := by
  intro c s t r h hc
  obtain rfl : t = (hostEffect c s).1 := congrArg Prod.fst (eq_hostEffect_of_hostPort h)
  obtain ⟨hstack, hsp⟩ := hostEffect_stack_sp hc s
  exact ⟨hstack, hsp, fun hc' => hostEffect_runStatus hc hc' s⟩

end Sys2Proof.Machine

/-! # Proofs of the family "encoding" (30_encoding.md)

The fields of an opcode are read off as numbers, and an opcode is its four nibbles. The encoder's opcodes are given as
numbers too, which makes encoding the inverse of decoding (`decodeOpcode_eq_ok_iff`). Every row of the table, and so what
the decoder refuses, is then a condition on the nibbles. -/

namespace Sys2Proof

open Machine

/-! ### Fields -/

section Fields

variable (op : Half)

theorem fieldsOf_c_toNat : (fieldsOf op).c.toNat = op.toNat / 4096 := by
  have := op.isLt
  simp only [fieldsOf, BitVec.extractLsb'_toNat, Nat.shiftRight_eq_div_pow]
  omega

theorem fieldsOf_x_toNat : (fieldsOf op).x.toNat = op.toNat / 256 % 16 := by
  simp [fieldsOf, BitVec.extractLsb'_toNat, Nat.shiftRight_eq_div_pow]

theorem fieldsOf_y_toNat : (fieldsOf op).y.toNat = op.toNat / 16 % 16 := by
  simp [fieldsOf, BitVec.extractLsb'_toNat, Nat.shiftRight_eq_div_pow]

theorem fieldsOf_d_toNat : (fieldsOf op).d.toNat = op.toNat % 16 := by
  simp [fieldsOf, BitVec.extractLsb'_toNat]

theorem fieldsOf_nnn_toNat : (fieldsOf op).nnn.toNat = op.toNat % 4096 := by
  simp [fieldsOf, BitVec.extractLsb'_toNat]

end Fields

/-- Settles O3: the fields and the two bytes are quotients and remainders of the one opcode. -/
theorem fieldsAreTheOpcodeNibbles : Obligations.FieldsAreTheOpcodeNibbles := by
  intro op
  rw [fieldsOf_c_toNat, fieldsOf_x_toNat, fieldsOf_y_toNat, fieldsOf_d_toNat, fieldsOf_nnn_toNat, highByte_toNat,
    lowByte_toNat]
  omega

/-- An opcode is its four nibbles. -/
theorem opcode_eq_iff_nibbles {a b : Half} :
    a = b ↔ (fieldsOf a).c = (fieldsOf b).c ∧ (fieldsOf a).x = (fieldsOf b).x ∧ (fieldsOf a).y = (fieldsOf b).y ∧
      (fieldsOf a).d = (fieldsOf b).d := by
  simp only [← BitVec.toNat_inj, fieldsOf_c_toNat, fieldsOf_x_toNat, fieldsOf_y_toNat, fieldsOf_d_toNat]
  omega

theorem class_eq_iff {op : Half} {n : BitVec 4} : (fieldsOf op).c = n ↔ op.toNat / 4096 = n.toNat := by
  rw [← BitVec.toNat_inj, fieldsOf_c_toNat]

theorem lastNibble_eq_iff {op : Half} {n : BitVec 4} : (fieldsOf op).d = n ↔ op.toNat % 16 = n.toNat := by
  rw [← BitVec.toNat_inj, fieldsOf_d_toNat]

/-! ### Encoding is the inverse of decoding -/

/-- CALL's class lies above the address (R54). -/
theorem encodeOpcode_call_toNat (nnn : Addr) : (encodeOpcode (.call nnn)).toNat = 0x2000 + nnn.toNat := by
  have h : (nnn.setWidth 16 : Half).toNat = nnn.toNat := zext16_toNat nnn
  rw [encodeOpcode, BitVec.toNat_or, h]
  exact (Nat.shiftLeft_add_eq_or_of_lt nnn.isLt 2).symm

/-- ADD's operands are its two middle nibbles (R47, R54). -/
theorem encodeOpcode_add_toNat :
    ∀ x y : RegIdx, (encodeOpcode (.add x y)).toNat = 0x8004 + 256 * x.val + 16 * y.val := by
  decide

/-- Settles O2: CALL's and ADD's opcodes are put together again from the fields, as numbers. -/
theorem everyDecodedOpcodeIsTheEncoding : Obligations.EveryDecodedOpcodeIsTheEncoding := by
  intro op i h
  rcases decodeOpcode_cases op with ⟨rfl, e⟩ | ⟨rfl, e⟩ | ⟨hc, e⟩ | ⟨hc, hd, e⟩ | ⟨-, -, -, -, e⟩ <;> cases e.symm.trans h
  · rfl
  · rfl
  · have hc' : op.toNat / 4096 = 2 := class_eq_iff.1 hc
    apply BitVec.eq_of_toNat_eq
    rw [encodeOpcode_call_toNat, fieldsOf_nnn_toNat]
    omega
  · have hc' : op.toNat / 4096 = 8 := class_eq_iff.1 hc
    have hd' : op.toNat % 16 = 4 := lastNibble_eq_iff.1 hd
    apply BitVec.eq_of_toNat_eq
    rw [encodeOpcode_add_toNat]
    simp only [regOperand, fieldsOf_x_toNat, fieldsOf_y_toNat]
    omega

/-- An opcode decodes to an instruction exactly when it is that instruction's opcode. -/
theorem decodeOpcode_eq_ok_iff {op : Half} {i : Instr} : decodeOpcode op = .ok i ↔ encodeOpcode i = op :=
  ⟨everyDecodedOpcodeIsTheEncoding op i, fun h => h ▸ decodeOpcode_encodeOpcode i⟩

/-- There is no ill-formed instruction term (R46, R47, R49). -/
theorem Instr.wellFormed_eq_true (i : Instr) : i.wellFormed = true := by
  cases i with
  | halt => rfl
  | ret => rfl
  | call nnn => exact decide_eq_true (Nat.le_of_lt_succ nnn.isLt)
  | add x y =>
    exact (Bool.and_eq_true _ _).mpr
      ⟨decide_eq_true (Nat.le_of_lt_succ x.isLt), decide_eq_true (Nat.le_of_lt_succ y.isLt)⟩

/-- Settles O1: the two bytes assemble to the opcode, and the opcode decodes to its instruction. -/
theorem decodeReadsBackEveryEncodedInstruction : Obligations.DecodeReadsBackEveryEncodedInstruction := by
  refine fun i rest => ⟨i.wellFormed_eq_true, ?_⟩
  simp only [encode, List.cons_append, List.nil_append, decode, joinBytes_highByte_lowByte, decodeOpcode_encodeOpcode]

/-- Settles O7, vector by vector. -/
theorem sampleOpcodesDecodeAsTabulated : Obligations.SampleOpcodesDecodeAsTabulated :=
  ⟨rfl, rfl, rfl, rfl, rfl, rfl, rfl, rfl, rfl, rfl⟩

/-! ### The rows of the table -/

/-- CALL's mask keeps the class. -/
theorem and_callMask_iff {op : Half} : op &&& 0xF000#16 = 0x2000#16 ↔ op.toNat / 4096 = 2 := by
  refine Iff.trans ?_ (class_eq_iff (n := 0x2#4))
  rw [opcode_eq_iff_nibbles]
  simp [fieldsOf, BitVec.extractLsb'_and, nibble_and_ones]

/-- ADD's mask keeps the class and the last nibble. -/
theorem and_addMask_iff {op : Half} : op &&& 0xF00F#16 = 0x8004#16 ↔ op.toNat / 4096 = 8 ∧ op.toNat % 16 = 4 := by
  refine Iff.trans ?_ (and_congr (class_eq_iff (n := 0x8#4)) (lastNibble_eq_iff (n := 0x4#4)))
  rw [opcode_eq_iff_nibbles]
  simp [fieldsOf, BitVec.extractLsb'_and, nibble_and_ones]

theorem decodeOpcode_eq_halt_iff {op : Half} : decodeOpcode op = .ok .halt ↔ op &&& 0xFFFF#16 = 0x0000#16 := by
  rw [decodeOpcode_eq_ok_iff, opcode_and_ones, encodeOpcode, eq_comm]

theorem decodeOpcode_eq_ret_iff {op : Half} : decodeOpcode op = .ok .ret ↔ op &&& 0xFFFF#16 = 0x00EE#16 := by
  rw [decodeOpcode_eq_ok_iff, opcode_and_ones, encodeOpcode, eq_comm]

theorem decodeOpcode_eq_call_iff {op : Half} {nnn : Addr} :
    decodeOpcode op = .ok (.call nnn) ↔ op &&& 0xF000#16 = 0x2000#16 ∧ nnn.toNat = op.toNat % 4096 := by
  rw [decodeOpcode_eq_ok_iff, and_callMask_iff, ← BitVec.toNat_inj, encodeOpcode_call_toNat]
  omega

theorem decodeOpcode_eq_add_iff {op : Half} {x y : RegIdx} :
    decodeOpcode op = .ok (.add x y) ↔
      op &&& 0xF00F#16 = 0x8004#16 ∧ x.val = op.toNat / 256 % 16 ∧ y.val = op.toNat / 16 % 16 := by
  rw [decodeOpcode_eq_ok_iff, and_addMask_iff, ← BitVec.toNat_inj, encodeOpcode_add_toNat]
  omega

/-- A well-formed opcode matches one of the four rows (R44). -/
theorem opcodeWellFormed_iff {op : Half} :
    opcodeWellFormed op = true ↔ op &&& 0xFFFF#16 = 0x0000#16 ∨ op &&& 0xFFFF#16 = 0x00EE#16 ∨
      op &&& 0xF000#16 = 0x2000#16 ∨ op &&& 0xF00F#16 = 0x8004#16 := by
  simp [opcodeWellFormed, opcodeTable, OpcodeRow.selects]

/-- An opcode that is an instruction selects a row of the table. -/
theorem opcodeWellFormed_eq_true {op : Half} {i : Instr} (h : decodeOpcode op = .ok i) : opcodeWellFormed op = true := by
  rw [opcodeWellFormed_iff]
  cases i with
  | halt => exact .inl (decodeOpcode_eq_halt_iff.1 h)
  | ret => exact .inr (.inl (decodeOpcode_eq_ret_iff.1 h))
  | call nnn => exact .inr (.inr (.inl (decodeOpcode_eq_call_iff.1 h).1))
  | add x y => exact .inr (.inr (.inr (decodeOpcode_eq_add_iff.1 h).1))

/-- The decoder refuses exactly the opcodes that select no row (R52, R60). -/
theorem decodeOpcode_eq_error_iff {op : Half} :
    decodeOpcode op = .error (.unimplementedOpcode op) ↔ opcodeWellFormed op = false := by
  refine ⟨opcodeWellFormed_eq_false, fun hw => ?_⟩
  cases hd : decodeOpcode op with
  | error e => rw [decodeOpcode_error hd]
  | ok i => cases hw.symm.trans (opcodeWellFormed_eq_true hd)

/-- Settles O4: one row at a time; what no row selects is a fetched opcode without a meaning. -/
theorem decoderFollowsTheMatchAndMaskTable : Obligations.DecoderFollowsTheMatchAndMaskTable := fun _ =>
  ⟨decodeOpcode_eq_halt_iff, decodeOpcode_eq_ret_iff, fun _ => decodeOpcode_eq_call_iff,
    fun _ _ => decodeOpcode_eq_add_iff, decodeOpcode_eq_error_iff, fun _ hr hf hw =>
    ⟨_, step_eq_next_iff.2 (.unimplemented hr ⟨hf, decodeOpcode_eq_error_iff.2 hw⟩), rfl, rfl, rfl⟩⟩

/-- An opcode under both masks is at once one row's match under the other's mask and the other's under the first's. -/
theorem OpcodeRow.pattern_and_mask_eq {op : Half} {r r' : OpcodeRow} (h : r.selects op = true)
    (h' : r'.selects op = true) : r.pattern &&& r'.mask = r'.pattern &&& r.mask := by
  rw [← beq_iff_eq.1 h, ← beq_iff_eq.1 h', BitVec.and_assoc, BitVec.and_assoc, BitVec.and_comm r.mask]

/-- Different rows ask for different bits where both masks look. -/
theorem opcodeTable_disjoint :
    ∀ r ∈ opcodeTable, ∀ r' ∈ opcodeTable, r.pattern &&& r'.mask = r'.pattern &&& r.mask → r = r' := by
  decide

/-- Settles O5. -/
theorem noOpcodeSelectsTwoRows : Obligations.NoOpcodeSelectsTwoRows := fun _ r r' hr hr' h h' =>
  opcodeTable_disjoint r hr r' hr' (OpcodeRow.pattern_and_mask_eq h h')

/-! ### Counting the refused opcodes -/

/-- The answer is no instruction exactly when no row is selected. -/
theorem isNone_decodeOpcode (op : Half) : (decodeOpcode op).toOption.isNone = !opcodeWellFormed op := by
  cases hd : decodeOpcode op with
  | error e => rw [opcodeWellFormed_eq_false hd]; rfl
  | ok i => rw [opcodeWellFormed_eq_true hd]; rfl

/-- `4096 * c + k`, the `k`-th opcode of class `c`, is an instruction, as a condition on the two numbers (R44). -/
abbrev InstrOfClass (c k : Nat) : Prop := (c = 0 ∧ (k = 0 ∨ k = 0xEE)) ∨ c = 2 ∨ (c = 8 ∧ k % 16 = 4)

theorem opcodeWellFormed_class_iff {c k : Nat} (hc : c < 16) (hk : k < 4096) :
    opcodeWellFormed (BitVec.ofNat 16 (4096 * c + k)) = true ↔ InstrOfClass c k := by
  have hop : (BitVec.ofNat 16 (4096 * c + k)).toNat = 4096 * c + k := Nat.mod_eq_of_lt (by omega)
  rw [opcodeWellFormed_iff, opcode_and_ones, and_callMask_iff, and_addMask_iff, ← BitVec.toNat_inj, ← BitVec.toNat_inj,
    hop]
  simp only [InstrOfClass, BitVec.toNat_ofNat]
  omega

/-- The 4096 opcodes of a class are those refused and the instructions. -/
theorem countP_refused_add_count {c : Nat} (hc : c < 16) :
    (List.range 4096).countP (fun k => (decodeOpcode (BitVec.ofNat 16 (4096 * c + k))).toOption.isNone) +
      Nat.count (InstrOfClass c) 4096 = 4096 := by
  have hrefused : ∀ k ∈ List.range 4096,
      (decodeOpcode (BitVec.ofNat 16 (4096 * c + k))).toOption.isNone = true ↔
        decide (¬ decide (InstrOfClass c k) = true) = true := by
    intro k hk
    rw [isNone_decodeOpcode, decide_eq_true_iff, decide_eq_true_iff,
      ← opcodeWellFormed_class_iff hc (List.mem_range.1 hk), Bool.not_eq_true', Bool.not_eq_true]
  rw [List.countP_congr hrefused, Nat.count, Nat.add_comm, ← List.length_eq_countP_add_countP, List.length_range]

/-- Class 0 holds two instructions, HALT and RETURN. -/
theorem count_class_zero : Nat.count (fun k => k = 0 ∨ k = 0xEE) 4096 = 2 := by
  have hset : (Finset.range 4096).filter (fun k => k = 0 ∨ k = 0xEE) = {0, 0xEE} := by
    ext k
    simp only [Finset.mem_filter, Finset.mem_range, Finset.mem_insert, Finset.mem_singleton]
    omega
  rw [Nat.count_eq_card_filter_range, hset, Finset.card_pair (by decide)]

/-- Class 8 holds 256 instructions, one ADD for each pair of registers. -/
theorem count_class_eight : Nat.count (fun k => k % 16 = 4) 4096 = 256 :=
  Nat.count_modEq_card 4096 (by decide : 0 < 16) 4

/-- How many opcodes of each class are instructions. -/
theorem count_instrOfClass (c : Nat) :
    Nat.count (InstrOfClass c) 4096 = if c = 0 then 2 else if c = 2 then 4096 else if c = 8 then 256 else 0 := by
  unfold InstrOfClass
  split_ifs with h0 h2 h8
  · simpa [h0] using count_class_zero
  · simp [h2]
  · simpa [h8] using count_class_eight
  · simp [h0, h2, h8]

/-- R51's counts, class by class: what the instructions leave of 4096. -/
theorem countP_refused {c : Nat} (hc : c < 16) :
    (List.range 4096).countP (fun k => (decodeOpcode (BitVec.ofNat 16 (4096 * c + k))).toOption.isNone) =
      if c = 0 then 4094 else if c = 2 then 0 else if c = 8 then 3840 else 4096 := by
  have h := countP_refused_add_count hc
  rw [count_instrOfClass] at h
  split_ifs at h ⊢ <;> omega

/-- Settles O6: the total is the sum of the counts of the sixteen classes. -/
theorem unimplementedOpcodesPerClass : Obligations.UnimplementedOpcodesPerClass := by
  refine ⟨fun c => countP_refused c.isLt, ?_⟩
  rw [List.map_congr_left fun c hc => countP_refused (List.mem_range.1 hc)]
  decide

end Sys2Proof

/-! # Proofs of the family "instruction cycle" (40_instruction_cycle.md)

A step of a running core that fetches an instruction is `exec` after the advance (`Fetches.step_eq`). The three endings
of R55 are those of the instructions, joined by the two faults that come before execution. -/

namespace Sys2Proof.Machine

/-! ### Advance and execute -/

/-- A running core executes the instruction it fetches with the post-advance IP (R57). -/
theorem Fetches.step_eq {s : State} {i : Instr} (h : Fetches s i) (hr : s.status = .running) :
    step s = exec i (advance s) := by
  obtain ⟨t, e⟩ := exec_next i (advance s)
  exact (step_eq_next_iff.2 (.executes hr h (exec_eq_next_iff.1 e))).trans e.symm

/-- How an instruction of a running core can end (R55): RUNNING, HALTED or FAULTED. -/
theorem Executes.ends {i : Instr} {s t : State} (h : Executes s i t) (hr : s.status = .running) :
    (t.status = .running ∧ t.faultKind = s.faultKind ∧ t.faultInfo = s.faultInfo ∧ i ≠ .halt) ∨
      (i = .halt ∧ t = s.setStatus .halted) ∨
      (t.status = .faulted ∧ t.faultKind ≠ .none ∧ i ≠ .halt ∧ ∀ x y, i ≠ .add x y) := by
  cases h with
  | halt => exact .inr (.inl ⟨rfl, rfl⟩)
  | underflow | overflow => exact .inr (.inr ⟨rfl, by simp, by simp, by simp⟩)
  | ret | call | add => exact .inl ⟨hr, rfl, rfl, by simp⟩

/-- Settles O11: a fault before execution fetches no instruction; otherwise the step ends as its one instruction does. -/
theorem stepEndsInExactlyOneOfThreeWays : Obligations.StepEndsInExactlyOneOfThreeWays := by
  intro s hr
  obtain ⟨t, e⟩ := step_next s
  refine ⟨t, e, ?_⟩
  cases step_eq_next_iff.1 e with
  | quiet hn => contradiction
  | outOfBounds _ h =>
    have hnone : ∀ i, ¬ Fetches s i := fun _ hf => Nat.not_le_of_lt h hf.ip_le
    exact .inr (.inr ⟨rfl, by simp, hnone _, fun _ _ => hnone _⟩)
  | unimplemented _ h =>
    have hnone : ∀ i, ¬ Fetches s i := fun _ hf => hf.not_unimplemented h
    exact .inr (.inr ⟨rfl, by simp, hnone _, fun _ _ => hnone _⟩)
  | @executes i _ _ hf he =>
    rcases he.ends hr with ⟨hst, hk, hw, hi⟩ | ⟨rfl, rfl⟩ | ⟨hst, hk, hhalt, hadd⟩
    · exact .inl ⟨hst, hk, hw, i, hf, hi, exec_eq_next_iff.2 he⟩
    · exact .inr (.inl ⟨rfl, hf, rfl⟩)
    · exact .inr (.inr ⟨hst, hk, fun hf' => hhalt (hf.unique hf'), fun x y hf' => hadd x y (hf.unique hf')⟩)

/-- Settles O10: the advance is in range because the fetch was, and it precedes both `exec` and the fault. -/
theorem stepExecutesTheDecodedInstructionAfterTheAdvance :
    Obligations.StepExecutesTheDecodedInstructionAfterTheAdvance := by
  intro s op hr hf
  have hle := ip_le_of_fetch hf
  have hip : (s.ip + 2).toNat = s.ip.toNat + 2 := advance_ip_toNat hle
  refine ⟨hip, by omega, fun i hd => Fetches.step_eq ⟨op, hf, hd⟩ hr, fun e hd => ?_⟩
  obtain rfl := decodeOpcode_error hd
  exact step_eq_next_iff.2 (.unimplemented hr ⟨hf, hd⟩)

/-- Settles O13. -/
theorem haltStepLeavesIpAfterTheOpcode : Obligations.HaltStepLeavesIpAfterTheOpcode := fun s hr hf =>
  ⟨(hf.step_eq hr).trans (execHalt_eq (advance s)), hf.ip_add_two_toNat⟩

/-! ### A core that is not running -/

/-- Settles O25, by induction on the number of steps: each is the quiet one. -/
theorem coreIsQuietUnlessRunning : Obligations.CoreIsQuietUnlessRunning := by
  intro s hn n
  induction n with
  | zero => rfl
  | succ n ih => exact (runCore_succ (step_eq_next_iff.2 (.quiet hn)) n).trans ih

end Sys2Proof.Machine

/-! # Proofs of the family "HALT" (41_halt.md) -/

namespace Sys2Proof.Machine

/-- The halted core waits for the host (R64, R81; log 4). -/
theorem step_setStatus_halted (s : State) : step (s.setStatus .halted) = .next (s.setStatus .halted) :=
  have hn : (s.setStatus .halted).status ≠ .running := by simp
  step_eq_next_iff.2 (.quiet hn)

/-- Settles O12: the decoder's clause holds because HALT, like every instruction, has one opcode only. -/
theorem haltSetsHaltedAndNothingElse : Obligations.HaltSetsHaltedAndNothingElse := by
  refine ⟨?encoding, ?opcode, fun s => ⟨execHalt_eq s, step_setStatus_halted s⟩⟩
  case encoding => rfl
  case opcode => exact fun op => decodeOpcode_eq_ok_iff.trans eq_comm

end Sys2Proof.Machine

/-! # Proofs of the family "subroutine" (42_subroutine.md)

Pop undoes Push (`pop_pushed`): that is the stack controller's statement, and with the step of a CALL it gives the call
and return discipline. -/

namespace Sys2Proof.Machine

/-! ### The stack controller -/

/-- The state after a Push that finds a free entry (R65). -/
def State.pushed (s : State) (a : Half) (h : s.sp.val < 16) : State :=
  (s.setStack ⟨s.sp.val, h⟩ a).setSp ⟨s.sp.val + 1, Nat.succ_lt_succ h⟩

theorem push_of_lt {s : State} (h : s.sp.val < 16) (a : Half) : push a s = .ok (s.pushed a h) := dif_pos h

theorem push_of_full {s : State} (h : s.sp.val = 16) (a : Half) :
    push a s = .error (raise .stackOverflow 0x0000 s) := by
  rcases push_cases a s with ⟨h', _⟩ | ⟨_, e⟩
  · omega
  · exact e

theorem pop_of_succ {s : State} {k : Nat} (hk : k < 16) (h : s.sp.val = k + 1) :
    pop s = .ok (s.stack[k], s.setSp ⟨k, Nat.lt_succ_of_lt hk⟩) := by
  rcases pop_cases s with ⟨k', _, h', e⟩ | ⟨h', _⟩
  · obtain rfl : k = k' := by omega
    exact e
  · omega

theorem pop_of_zero {s : State} (h : s.sp.val = 0) : pop s = .error (raise .stackUnderflow 0x0000 s) := by
  rcases pop_cases s with ⟨_, _, h', _⟩ | ⟨_, e⟩
  · omega
  · exact e

theorem pushed_stack_self {s : State} {a : Half} (h : s.sp.val < 16) : (s.pushed a h).stack[s.sp.val] = a :=
  Vector.getElem_set_self h

theorem pushed_stack_of_ne {s : State} {a : Half} (h : s.sp.val < 16) {k : Fin 16} (hk : k.val ≠ s.sp.val) :
    (s.pushed a h).stack[k.val] = s.stack[k.val] :=
  Vector.getElem_set_ne h k.isLt hk.symm

/-- Pop undoes Push, but for the entry, which is not cleared. -/
theorem pop_pushed {s : State} {a : Half} (h : s.sp.val < 16) :
    pop (s.pushed a h) = .ok (a, s.setStack ⟨s.sp.val, h⟩ a) := by
  rw [pop_of_succ h rfl, pushed_stack_self]
  rfl

/-- Settles O19. -/
theorem stackControllerPushAndPop : Obligations.StackControllerPushAndPop := fun s a =>
  ⟨fun h => ⟨s.pushed a h, push_of_lt h a, rfl, pushed_stack_self h, fun _ => pushed_stack_of_ne h, rfl, pop_pushed h⟩,
    fun h => push_of_full h a, fun _ => pop_of_succ, pop_of_zero⟩

/-! ### RETURN and CALL -/

/-- Settles O14: RETURN, like every instruction, has one opcode only; its two outcomes are those of Pop. -/
theorem returnPopsTheStackIntoIp : Obligations.ReturnPopsTheStackIntoIp :=
  ⟨rfl, fun _ => decodeOpcode_eq_ok_iff.trans eq_comm, fun _ =>
    ⟨fun k hk h => exec_eq_next_iff.2 (.ret k hk h), fun h => exec_eq_next_iff.2 (.underflow h)⟩⟩

/-- Settles O15: the opcode is CALL's encoding; its two outcomes are those of Push. -/
theorem callPushesIpAndJumps : Obligations.CallPushesIpAndJumps := fun nnn =>
  ⟨decodeOpcode_encodeOpcode (.call nnn), fun _ =>
    ⟨fun h => exec_eq_next_iff.2 (.call nnn h), fun h => exec_eq_next_iff.2 (.overflow nnn h)⟩⟩

/-! ### The call and return discipline -/

/-- RETURN jumps to what Pop answers (R66). -/
theorem exec_ret_of_pop {s t : State} {a : Half} (h : pop s = .ok (a, t)) : exec .ret s = .next (t.setIp a) := by
  simp [exec, execReturn, h]

/-- The state after the step of a CALL that finds a free entry (R57, R68). -/
def State.called (s : State) (nnn : Addr) (h : s.sp.val < 16) : State :=
  ((advance s).pushed (s.ip + 2) h).setIp (zext16 nnn)

theorem called_sp {s : State} (nnn : Addr) (h : s.sp.val < 16) : (s.called nnn h).sp.val = s.sp.val + 1 := rfl

theorem Fetches.step_call {s : State} {nnn : Addr} (hf : Fetches s (.call nnn)) (hr : s.status = .running)
    (h : s.sp.val < 16) : step s = .next (s.called nnn h) :=
  step_eq_next_iff.2 (.executes hr hf (.call (s := advance s) nnn h))

/-- Past the opcode at its target a CALL's return address is still on top: Pop undoes the CALL's Push. -/
theorem pop_advance_called {s : State} (nnn : Addr) (h : s.sp.val < 16) :
    pop (advance (s.called nnn h)) =
      .ok (s.ip + 2, (advance (s.setIp (zext16 nnn))).setStack ⟨s.sp.val, h⟩ (s.ip + 2)) :=
  pop_pushed (s := advance (s.setIp (zext16 nnn))) h

/-- A RETURN at the target of a CALL comes back to the address after the CALL (R67). -/
theorem runCore_call_ret {s : State} {nnn : Addr} (h : s.sp.val < 16) (hr : s.status = .running)
    (hf : Fetches s (.call nnn)) (hf' : Fetches (s.setIp (zext16 nnn)) .ret) :
    runCore 2 s = .next ((s.setStack ⟨s.sp.val, h⟩ (s.ip + 2)).setIp (s.ip + 2)) := by
  have hret : Fetches (s.called nnn h) .ret := hf'.congr rfl rfl
  calc runCore 2 s
    _ = runCore 1 (s.called nnn h) := runCore_succ (hf.step_call hr h) 1
    _ = .next _ := runCore_succ ((hret.step_eq hr).trans (exec_ret_of_pop (pop_advance_called nnn h))) 0

/-- A run of CALLs that does not overflow the stack makes one entry live at each step (R67). -/
theorem runCore_calls {n : Nat} {s : State} (hr : s.status = .running) (hn : s.sp.val + n ≤ 16)
    (hcalls : ∀ (k : Nat) (t : State), k < n → runCore k s = .next t → ∃ nnn, Fetches t (.call nnn)) :
    ∃ t, runCore n s = .next t ∧ t.status = .running ∧ t.sp.val = s.sp.val + n := by
  induction n generalizing s with
  | zero => exact ⟨s, rfl, hr, rfl⟩
  | succ n ih =>
    obtain ⟨nnn, hf⟩ := hcalls 0 s (Nat.succ_pos n) rfl
    have hlt : s.sp.val < 16 := by omega
    have e := hf.step_call hr hlt
    have hsp := called_sp nnn hlt
    obtain ⟨u, hu, hur, husp⟩ := ih (s := s.called nnn hlt) hr (by omega) fun k t hk ht =>
      hcalls (k + 1) t (by omega) ((runCore_succ e k).trans ht)
    exact ⟨u, (runCore_succ e n).trans hu, hur, by omega⟩

/-- Settles O20: (a) and the first part of (b) are runs of CALLs; the rest are the two faults of the stack. -/
theorem callAndReturnDiscipline : Obligations.CallAndReturnDiscipline := by
  refine ⟨?callRet, ?calls, ?overflow, ?underflow⟩
  case callRet => exact fun s nnn h hr hf hf' => ⟨hf.ip_add_two_toNat, runCore_call_ret h hr hf hf'⟩
  case calls => exact fun n s => runCore_calls
  case overflow =>
    exact fun s nnn hr h hf => ⟨_, step_eq_next_iff.2 (.executes hr hf (.overflow nnn h)), rfl, rfl⟩
  case underflow =>
    exact fun s hr h hf => ⟨_, step_eq_next_iff.2 (.executes hr hf (.underflow h)), rfl, rfl⟩

end Sys2Proof.Machine

/-! # Proofs of the family "arithmetic" (43_arithmetic.md)

ADD is a write of the sum followed by a write of the carry (`State.added`). What each write leaves in the register file
gives R69, and the aliasing cases of R70 are read off the same facts. -/

namespace Sys2Proof.Machine

/-! ### The ALU -/

/-- A byte added to itself carries exactly when its top bit is set (R70). -/
theorem carryByte_self (a : Byte) : carryByte a a = if 128 ≤ a.toNat then 0x01 else 0x00 := by
  have h : 255 < a.toNat + a.toNat ↔ 128 ≤ a.toNat := by omega
  simp only [carryByte_eq, h]

/-! ### The two writes of ADD -/

/-- The state after ADD: the sum in V[x] and then the carry in V[15] (R69). -/
def State.added (s : State) (x y : RegIdx) : State :=
  (s.setV x (sumByte (readV s x) (readV s y))).setV vf (carryByte (readV s x) (readV s y))

theorem exec_add (x y : RegIdx) (s : State) : exec (.add x y) s = .next (s.added x y) := execAdd_eq x y s

theorem agreeOutsideV_added (s : State) (x y : RegIdx) : AgreeOutsideV (s.added x y) s :=
  ⟨rfl, rfl, rfl, rfl, rfl, rfl, rfl⟩

/-- The carry is written last, so it stands in V[15] whatever x is (R69; decision D8). -/
theorem added_carry (s : State) (x y : RegIdx) : (s.added x y).v[15] = carryByte (readV s x) (readV s y) :=
  Vector.getElem_set_self vf.isLt

/-- The carry's write leaves the sum in place unless x = 15. -/
theorem added_sum {s : State} {x : RegIdx} (y : RegIdx) (hx : x ≠ 15) :
    (s.added x y).v[x.val] = sumByte (readV s x) (readV s y) := by
  have hf : vf.val ≠ x.val := fun e => hx (Fin.ext e.symm)
  calc (s.added x y).v[x.val]
    _ = (s.setV x (sumByte (readV s x) (readV s y))).v[x.val] := Vector.getElem_set_ne vf.isLt x.isLt hf
    _ = sumByte (readV s x) (readV s y) := Vector.getElem_set_self x.isLt

/-- With x = 15 the sum is lost: V[15] is written over by the carry and nothing else changes (R70; decision D8). -/
theorem added_vf (s : State) (y : RegIdx) : s.added 15 y = s.setV 15 (carryByte (readV s 15) (readV s y)) := by
  simp only [State.added, State.setV, vf, Vector.set_set]

/-! ### ADD Vx, Vy -/

/-- Settles O16: the opcode is ADD's encoding; the registers hold what the two writes leave in them. -/
theorem addWritesSumAndCarry : Obligations.AddWritesSumAndCarry := by
  refine fun x y => ⟨decodeOpcode_encodeOpcode (.add x y), fun s => ⟨s.added x y, exec_add x y s, ?sum, ?carry, ?frame,
    agreeOutsideV_added s x y⟩⟩
  case sum => exact fun hx => added_sum y hx ▸ sumByte_toNat _ _
  case carry => exact (added_carry s x y).trans (carryByte_eq _ _)
  case frame =>
    intro i hx hf
    by_contra hne
    obtain ⟨_, _, e, h⟩ := (exec_eq_next_iff.1 (exec_add x y s)).v_frame hne
    cases e
    exact h.elim hx hf

/-- Settles O17: with x other than 15 both writes stand, and y may be x or 15; with x = 15 the carry alone stands. -/
theorem addAliasingCases : Obligations.AddAliasingCases := by
  refine fun s => ⟨fun x hx => ⟨s.added x x, exec_add x x s, ?doubled, ?doubledCarry⟩, fun x hx => ?oldVf, fun y _ => ?carry,
    ?bothVf⟩
  case doubled => rw [added_sum x hx, sumByte_toNat, two_mul]; rfl
  case doubledCarry => exact (added_carry s x x).trans (carryByte_self _)
  case oldVf =>
    obtain ⟨t, e, hsum, hcarry, -, -⟩ := (addWritesSumAndCarry x 15).2 s
    exact ⟨t, e, hsum hx, hcarry⟩
  case carry => rw [exec_add, added_vf, carryByte_eq]; rfl
  case bothVf => rw [exec_add, added_vf, carryByte_self]; rfl

end Sys2Proof.Machine

/-! # Proofs of the family "exceptions" (60_exceptions.md)

The four faults are one relation (`Faults`): a step of a running core faults exactly when one of them holds
(`Faults.step_eq`, `Steps.faults`). That a run ends rests on a measure that every instruction increases: the addresses
where the subroutines in progress stand, outermost first (`frames`). -/

namespace Sys2Proof.Machine

/-! ### The four faults -/

/-- The fault that a step of a running core raises, with its FAULT_INFO (R73 to R76). -/
inductive Faults (s : State) : FaultKind → Half → Prop where
  | outOfBounds (h : 0x0FFE < s.ip.toNat) : Faults s .outOfBounds s.ip
  | unimplemented {op : Half} (h : FetchesUnimplemented s op) : Faults s .unimplementedOpcode op
  | overflow {nnn : Addr} (h : s.sp.val = 16) (hf : Fetches s (.call nnn)) : Faults s .stackOverflow 0x0000
  | underflow (h : s.sp.val = 0) (hf : Fetches s .ret) : Faults s .stackUnderflow 0x0000

/-- The state in which a fault of kind `k` is raised: only OutOfBounds comes before the advance (R78). -/
def faultPoint (k : FaultKind) (s : State) : State := if k = .outOfBounds then s else advance s

theorem Faults.step_eq {s : State} {k : FaultKind} {w : Half} (h : Faults s k w) (hr : s.status = .running) :
    step s = .next (raise k w (faultPoint k s)) := by
  refine step_eq_next_iff.2 ?_
  cases h with
  | outOfBounds h => exact .outOfBounds hr h
  | unimplemented h => exact .unimplemented hr h
  | overflow h hf => exact .executes hr hf (.overflow _ h)
  | underflow h hf => exact .executes hr hf (.underflow h)

/-- A step that leaves a running core FAULTED raised one of the four faults. -/
theorem Steps.faults {s t : State} (h : Steps s t) (hr : s.status = .running) (ht : t.status = .faulted) :
    ∃ k w, Faults s k w := by
  cases h with
  | quiet hn => contradiction
  | outOfBounds _ h => exact ⟨_, _, .outOfBounds h⟩
  | unimplemented _ h => exact ⟨_, _, .unimplemented h⟩
  | executes _ hf he =>
    rcases he.status_cases with e | ⟨-, e⟩ | ⟨-, ⟨rfl, h⟩ | ⟨nnn, rfl, h⟩⟩
    · cases (e.trans hr).symm.trans ht
    · cases e.symm.trans ht
    · exact ⟨_, _, .underflow h hf⟩
    · exact ⟨_, _, .overflow h hf⟩

/-- A step of a running core ends FAULTED of kind `k` exactly when a fault of kind `k` holds before it. -/
theorem faulted_kind_iff {s t : State} (hr : s.status = .running) (e : step s = .next t) (k : FaultKind) :
    (t.status = .faulted ∧ t.faultKind = k) ↔ ∃ w, Faults s k w := by
  constructor
  · rintro ⟨ht, rfl⟩
    obtain ⟨k, w, h⟩ := (step_eq_next_iff.1 e).faults hr ht
    cases e.symm.trans (h.step_eq hr)
    exact ⟨w, h⟩
  · rintro ⟨w, h⟩
    cases e.symm.trans (h.step_eq hr)
    exact ⟨rfl, rfl⟩

theorem exists_faults_unimplementedOpcode_iff {s : State} :
    (∃ w, Faults s .unimplementedOpcode w) ↔ ∃ op, FetchesUnimplemented s op :=
  ⟨fun ⟨op, .unimplemented h⟩ => ⟨op, h⟩, fun ⟨op, h⟩ => ⟨op, .unimplemented h⟩⟩

theorem exists_faults_stackOverflow_iff {s : State} :
    (∃ w, Faults s .stackOverflow w) ↔ s.sp.val = 16 ∧ ∃ nnn, Fetches s (.call nnn) :=
  ⟨fun ⟨_, .overflow h hf⟩ => ⟨h, _, hf⟩, fun ⟨h, _, hf⟩ => ⟨_, .overflow h hf⟩⟩

theorem exists_faults_stackUnderflow_iff {s : State} :
    (∃ w, Faults s .stackUnderflow w) ↔ s.sp.val = 0 ∧ Fetches s .ret :=
  ⟨fun ⟨_, .underflow h hf⟩ => ⟨h, hf⟩, fun ⟨h, hf⟩ => ⟨_, .underflow h hf⟩⟩

/-- Settles O21: a fault of the kind holds before the step, and its record is written after the advance. -/
theorem executeStageFaultsAndTheStateTheyLeave : Obligations.ExecuteStageFaultsAndTheStateTheyLeave := by
  intro s hr
  obtain ⟨t, e⟩ := step_next s
  have hleft : ∀ {k w}, Faults s k w → t = raise k w (faultPoint k s) := fun h => by
    cases e.symm.trans (h.step_eq hr)
    rfl
  have hkind := faulted_kind_iff hr e
  refine ⟨t, e, (hkind _).trans exists_faults_stackOverflow_iff, fun ht => ?overflow,
    (hkind _).trans exists_faults_stackUnderflow_iff, fun ht => ?underflow,
    (hkind _).trans exists_faults_unimplementedOpcode_iff, fun op h => hleft (.unimplemented h)⟩
  case overflow =>
    exact let ⟨_, .overflow h hf⟩ := (hkind _).1 ht; hleft (.overflow h hf)
  case underflow =>
    exact let ⟨_, .underflow h hf⟩ := (hkind _).1 ht; hleft (.underflow h hf)

/-- The four conditions under which a step faults (R72, R77). -/
theorem exists_faults_iff {s : State} : (∃ k w, Faults s k w) ↔
    (0x0FFE < s.ip.toNat ∨ (∃ op, FetchesUnimplemented s op) ∨
      (s.sp.val = 16 ∧ ∃ nnn, Fetches s (.call nnn)) ∨ (s.sp.val = 0 ∧ Fetches s .ret)) := by
  constructor
  · rintro ⟨k, w, h⟩
    cases h with
    | outOfBounds h => exact .inl h
    | unimplemented h => exact .inr (.inl ⟨w, h⟩)
    | overflow h hf => exact .inr (.inr (.inl ⟨h, _, hf⟩))
    | underflow h hf => exact .inr (.inr (.inr ⟨h, hf⟩))
  · rintro (h | ⟨op, h⟩ | ⟨h, nnn, hf⟩ | ⟨h, hf⟩)
    · exact ⟨_, _, .outOfBounds h⟩
    · exact ⟨_, _, .unimplemented h⟩
    · exact ⟨_, _, .overflow h hf⟩
    · exact ⟨_, _, .underflow h hf⟩

/-- Settles O23: a fault of some kind is one of the four conditions, and nothing is fetched above 0x0FFE. -/
theorem exactlyFourWaysToGoWrong : Obligations.ExactlyFourWaysToGoWrong := by
  intro s hr
  obtain ⟨t, e⟩ := step_next s
  have hfaulted : ¬ Safe t ↔ ∃ k w, Faults s k w :=
    not_not.trans ⟨(step_eq_next_iff.1 e).faults hr, fun ⟨k, hk⟩ => ((faulted_kind_iff hr e k).2 hk).1⟩
  exact ⟨t, e, hfaulted.trans exists_faults_iff, fun _ _ => Fetches.unique, fun _ _ => Fetches.not_unimplemented,
    fun h => ⟨fun _ hf => Nat.not_le_of_lt h hf.ip_le, fun _ hf => Nat.not_le_of_lt h hf.ip_le⟩⟩

/-- Settles O24: the faulted state is `raise` over the fault's point, and a faulted core is quiet. -/
theorem faultsArePreciseAndFinal : Obligations.FaultsArePreciseAndFinal := by
  intro s t hr e ht
  obtain ⟨k, w, h⟩ := (step_eq_next_iff.1 e).faults hr ht
  cases e.symm.trans (h.step_eq hr)
  have hquiet := coreIsQuietUnlessRunning (raise k w (faultPoint k s)) (by simp)
  cases h with
  | outOfBounds => exact ⟨rfl, by simp, fun _ => rfl, fun hk => absurd rfl hk, hquiet⟩
  | unimplemented | overflow | underflow => exact ⟨rfl, by simp, by simp, fun _ => rfl, hquiet⟩

/-! ### Every run ends -/

/-- Where the subroutines in progress stand, outermost first: the live entries, then IP; a slot above IP, whose
subroutine has returned or was never called, counts as past every address. -/
def frames (s : State) : Lex (Fin 17 → WithTop (Fin (2 ^ 16))) := toLex fun k =>
  if h : k.val < s.sp.val then (s.stack[k.val]'(by omega)).toFin else if k = s.sp then s.ip.toFin else ⊤

section
variable {s : State} {k : Fin 17}

theorem frames_of_lt (h : k.val < s.sp.val) : frames s k = ((s.stack[k.val]'(by omega)).toFin : WithTop _) := dif_pos h

theorem frames_sp : frames s s.sp = (s.ip.toFin : WithTop _) := by simp [frames]

theorem frames_of_gt (h : s.sp.val < k.val) : frames s k = ⊤ := by
  have hne : k ≠ s.sp := Fin.ne_of_gt h
  simp [frames, hne, Fin.le_of_lt h]

end

/-- The frames increase when the innermost one moves on and those that called it stand still. -/
theorem frames_lt_of_callers_eq {s t : State} (hcallers : ∀ k : Fin 17, k.val < s.sp.val → frames t k = frames s k)
    (hmoves : (s.ip.toFin : WithTop _) < frames t s.sp) : frames s < frames t :=
  ⟨s.sp, fun k hk => (hcallers k hk).symm, frames_sp.trans_lt hmoves⟩

theorem ip_lt_advance_ip {s : State} (h : s.ip.toNat ≤ 0x0FFE) : s.ip.toFin < (advance s).ip.toFin :=
  Fin.lt_def.2 (by rw [BitVec.val_toFin, BitVec.val_toFin, advance_ip_toNat h]; omega)

theorem frames_lt_advance {s : State} (h : s.ip.toNat ≤ 0x0FFE) : frames s < frames (advance s) := by
  refine frames_lt_of_callers_eq (fun k hk => ?_) ?_
  · rw [frames_of_lt hk, frames_of_lt (s := advance s) hk]
    rfl
  · rw [← advance_sp, frames_sp, WithTop.coe_lt_coe]
    exact ip_lt_advance_ip h

/-- Every instruction increases the frames: RETURN ends its frame, CALL moves its caller's past the opcode. -/
theorem Executes.frames_lt {i : Instr} {s t : State} (h : Executes (advance s) i t) (hle : s.ip.toNat ≤ 0x0FFE) :
    frames s < frames t := by
  cases h with
  | ret j hj h =>
    change s.sp.val = j + 1 at h
    refine frames_lt_of_callers_eq (fun k hk => ?_) ?_
    · rw [frames_of_lt hk]
      obtain hlt | rfl : k.val < j ∨ j = k.val := by omega
      · exact frames_of_lt hlt
      · exact frames_sp
    · rw [frames_of_gt (by simp [h])]
      exact WithTop.coe_lt_top _
  | call nnn h =>
    change s.sp.val < 16 at h
    refine frames_lt_of_callers_eq (fun k hk => ?_) ?_
    · rw [frames_of_lt hk, frames_of_lt (Nat.lt_succ_of_lt hk)]
      simp [Nat.ne_of_gt hk]
    · rw [frames_of_lt (Nat.lt_succ_self _), WithTop.coe_lt_coe]
      simpa using ip_lt_advance_ip hle
  | halt | underflow | overflow | add => exact frames_lt_advance hle

/-- A step of a running core ends the run or increases the frames. -/
theorem Steps.ended_or_frames_lt {s t : State} (h : Steps s t) (hr : s.status = .running) :
    Ended t ∨ (t.status = .running ∧ frames s < frames t) := by
  cases h with
  | quiet hn => contradiction
  | outOfBounds | unimplemented => exact .inl (.inr rfl)
  | executes _ hf he =>
    rcases he.ends hr with ⟨hst, -⟩ | ⟨-, rfl⟩ | ⟨hst, -⟩
    · exact .inr ⟨hst, he.frames_lt hf.ip_le⟩
    · exact .inl (.inl rfl)
    · exact .inl (.inr hst)

theorem Ended.not_running {s : State} (h : Ended s) : s.status ≠ .running := by
  rcases h with h | h <;> simp [h]

/-- Settles O26: a step that does not end the run increases the frames, which take finitely many values. -/
theorem everyRunEnds : Obligations.EveryRunEnds := by
  intro s
  induction s using (InvImage.wf frames wellFounded_gt).induction with
  | _ s ih =>
    intro hr
    obtain ⟨u, e⟩ := step_next s
    obtain ⟨n, t, ht, hrun⟩ : ∃ n t, Ended t ∧ ∀ m, n ≤ m → runCore m u = .next t := by
      rcases (step_eq_next_iff.1 e).ended_or_frames_lt hr with hu | ⟨hur, hlt⟩
      · exact ⟨0, u, hu, fun m _ => coreIsQuietUnlessRunning u hu.not_running m⟩
      · exact ih u hlt hur
    refine ⟨n + 1, t, ht, fun m hm => ?_⟩
    obtain ⟨m, rfl⟩ := Nat.exists_eq_add_of_le' (Nat.le_of_add_left_le hm)
    exact (runCore_succ e m).trans (hrun m (Nat.le_of_succ_le_succ hm))

end Sys2Proof.Machine

/-! # Proofs of the family "reset and hazards" (70_reset_and_hazards.md)

A standard launch is `host_reset`, the setup commands and `run`, and the port stays open up to `run`. What a register, a
byte of memory or IP holds at the end is one argument for all three: each is an element that one kind of setup command
writes and every other leaves alone (`WrittenBy`), so the last such write decides. -/

namespace Sys2Proof.Machine

/-! ### Reset -/

@[simp] theorem reset_v_getElem (i : RegIdx) : State.reset.v[i.val] = 0x00 := Vector.getElem_replicate _

@[simp] theorem reset_stack_getElem (k : Fin 16) : State.reset.stack[k.val] = 0x0000 := Vector.getElem_replicate _

/-- Settles O38: an open port answers the effect of `host_reset`, which is `resetCore`. -/
theorem resetValues : Obligations.ResetValues :=
  ⟨reset_v_getElem, reset_stack_getElem, rfl, rfl, rfl, rfl, rfl, rfl, fun _ =>
    ⟨rfl, fun h => hostPort_of_not_running h .reset⟩⟩

/-! ### What a list of commands writes and leaves -/

theorem hostCommands_cons_of_running {s : State} (h : s.status = .running) (c : HostCmd) (cs : List HostCmd) :
    hostCommands (c :: cs) s = .refused .hostPortClosed := by
  rw [hostCommands, hostPort_of_running h]

/-- A list of commands gets past its first only through an open port, which gives the command its effect. -/
theorem hostCommands_of_cons {c : HostCmd} {cs : List HostCmd} {s t : State} (h : hostCommands (c :: cs) s = .next t) :
    hostCommands cs (hostEffect c s).1 = .next t := by
  by_cases hr : s.status = .running
  · rw [hostCommands_cons_of_running hr] at h
    cases h
  · rwa [hostCommands_cons hr] at h

/-- What no command of a list changes, the list leaves as it was. -/
theorem hostCommands_frame {α : Type} {f : State → α} {cs : List HostCmd} {s t : State}
    (hf : ∀ c ∈ cs, ∀ u, f (hostEffect c u).1 = f u) (h : hostCommands cs s = .next t) : f t = f s := by
  induction cs generalizing s with
  | nil =>
    cases h
    rfl
  | cons c cs ih =>
    obtain ⟨hc, hcs⟩ := List.forall_mem_cons.1 hf
    exact (ih hcs (hostCommands_of_cons h)).trans (hc s)

/-- Setup commands leave the call stack as it was. -/
theorem stack_sp_of_setup {setup : List HostCmd} {s t : State} (hsetup : ∀ c ∈ setup, c.isSetup = true)
    (h : hostCommands setup s = .next t) : t.stack = s.stack ∧ t.sp = s.sp := by
  have hne : ∀ c ∈ setup, c ≠ .reset := fun c hc e => absurd (hsetup c hc) (by simp [e, HostCmd.isSetup])
  exact ⟨hostCommands_frame (fun c hc u => (hostEffect_stack_sp (hne c hc) u).1) h,
    hostCommands_frame (fun c hc u => (hostEffect_stack_sp (hne c hc) u).2) h⟩

/-! ### The last write decides -/

/-- Among setup commands, those that `write` gives set the element `f` of the state, and no other changes it. -/
structure WrittenBy {α : Type} (f : State → α) (write : α → HostCmd) : Prop where
  writes : ∀ s b, f (hostEffect (write b) s).1 = b
  leaves : ∀ s c, c.isSetup = true → (∀ b, write b ≠ c) → f (hostEffect c s).1 = f s

theorem writtenBy_writeReg (i : RegIdx) : WrittenBy (fun s => s.v[i.val]) (.writeReg i) where
  writes s b := (readV_writeV s i i b).trans (if_pos rfl)
  leaves s c hc hne := by
    cases c with
    | writeReg j b =>
      have hij : i ≠ j := fun e => hne b (e ▸ rfl)
      exact (readV_writeV s j i b).trans (if_neg hij)
    | writeMem | writeIp => rfl
    | _ => cases hc

theorem writtenBy_writeMem (a : Addr) : WrittenBy (fun s => s.mem.read a) (.writeMem a) where
  writes s := Memory.read_write_self s.mem a
  leaves s c hc hne := by
    cases c with
    | writeMem x b =>
      have hax : a ≠ x := fun e => hne b (e ▸ rfl)
      exact Memory.read_write_of_ne hax b
    | writeReg | writeIp => rfl
    | _ => cases hc

theorem writtenBy_writeIp : WrittenBy State.ip .writeIp where
  writes _ _ := rfl
  leaves s c hc hne := by
    cases c with
    | writeIp a => exact absurd rfl (hne a)
    | writeReg | writeMem => rfl
    | _ => cases hc

namespace WrittenBy

variable {α : Type} {f : State → α} {write : α → HostCmd}

/-- An element that no setup command writes is left as it was. -/
theorem eq_of_not_written (h : WrittenBy f write) {setup : List HostCmd} {s t : State}
    (hsetup : ∀ c ∈ setup, c.isSetup = true) (hrun : hostCommands setup s = .next t) (hnot : ∀ b, write b ∉ setup) :
    f t = f s :=
  hostCommands_frame (fun c hc u => h.leaves u c (hsetup c hc) fun b e => hnot b (e ▸ hc)) hrun

/-- An element holds the last value that setup commands write to it. -/
theorem eq_last (h : WrittenBy f write) {setup : List HostCmd} {s t : State}
    (hsetup : ∀ c ∈ setup, c.isSetup = true) (hrun : hostCommands setup s = .next t) (b : α)
    (before after : List HostCmd) (heq : setup = before ++ write b :: after) (hlast : ∀ b', write b' ∉ after) :
    f t = b := by
  subst heq
  induction before generalizing s with
  | nil =>
    obtain ⟨-, hafter⟩ := List.forall_mem_cons.1 hsetup
    exact (h.eq_of_not_written hafter (hostCommands_of_cons hrun) hlast).trans (h.writes s b)
  | cons c before ih => exact ih (List.forall_mem_cons.1 hsetup).2 (hostCommands_of_cons hrun)

end WrittenBy

/-! ### The standard launch -/

/-- A launch of a core that is not running is the setup commands after reset, and then the writes of `run`. -/
theorem standardLaunch_eq {setup : List HostCmd} {s u : State} (hs : s.status ≠ .running)
    (hu : hostCommands setup (resetCore s) = .next u) (hopen : u.status ≠ .running) :
    standardLaunch setup s = .next (beginRun u) := by
  rw [standardLaunch, List.cons_append, hostCommands_cons hs]
  exact (hostCommands_append hu [.run]).trans (hostCommands_cons hopen .run [])

/-- Settles O44: `run` writes the run status only, so every other element is as the setup commands left it. -/
theorem standardLaunchState : Obligations.StandardLaunchState := by
  intro setup s hsetup
  refine ⟨fun hr => hostCommands_cons_of_running hr _ _, fun hr => ?_⟩
  have hidle : (resetCore s).status ≠ .running := by simp [State.reset]
  obtain ⟨u, hu, hstatus⟩ := hostCommands_of_setup hidle hsetup
  obtain ⟨hstack, hsp⟩ := stack_sp_of_setup hsetup hu
  have hstack0 (k : Fin 16) : u.stack[k.val] = 0x0000 := by simp [hstack]
  have hv (i : RegIdx) := (writtenBy_writeReg i).eq_of_not_written hsetup hu
  have hvLast (i : RegIdx) := (writtenBy_writeReg i).eq_last hsetup hu
  have hmem (a : Addr) := (writtenBy_writeMem a).eq_of_not_written hsetup hu
  have hmemLast (a : Addr) := (writtenBy_writeMem a).eq_last hsetup hu
  have hip := writtenBy_writeIp.eq_of_not_written hsetup hu
  have hipLast := writtenBy_writeIp.eq_last hsetup hu
  exact ⟨beginRun u, standardLaunch_eq hr hu (hstatus ▸ hidle), rfl, rfl, rfl, congrArg Fin.val hsp, hstack0,
    hvLast, fun i hi => (hv i hi).trans (reset_v_getElem i), hmemLast, hmem, hipLast, hip⟩

end Sys2Proof.Machine
